-- ==== Sys2Proof/Word.lean ====
section
/-!
DEFINITION. The block's number types (spec/00_scope.md R11 to R13): the 8-bit bus datum, the 32-bit two's-complement
register, the 16-bit CPU bus address and the 14-bit PPU bus address.
-/

namespace Sys2Proof

/-- A bus datum, and the `byte` registers (R11, R13). -/
abbrev Byte := BitVec 8

/-- An `int32` register: 32 bits, two's complement (R13). -/
abbrev Word := BitVec 32

/-- A CPU bus address (R11). Also the address operand of a PPU access before it is reduced to 14 bits (R102). -/
abbrev BusAddr := BitVec 16

/-- A PPU bus address (R11). -/
abbrev PpuAddr := BitVec 14

/-- `zext_32` of an 8-bit datum: how a bus datum is assigned to an `int32` register (R12, R13). -/
abbrev zext32 (d : Byte) : Word := d.setWidth 32

end Sys2Proof
end

