-- ==== Sys2Proof/Config.lean ====
section
/-!
DEFINITION. What a construction of the block fixes (spec/00_scope.md R8, R9), and the free values: the bytes the spec
leaves open, as opaque constants no proof can evaluate.
-/

namespace Sys2Proof

/-- Bytes listed by offset, offsets strictly rising. An offset that is not listed holds a free value of this file:
which one, the reader of the image says (log entry 7). -/
abbrev Machine.Memory := List Host.Cell

/-- `BOARD`: the variant (R3, R10). -/
inductive Board where
  | mmc3
  | simple
  deriving DecidableEq, Repr

/-- The mirroring mode (spec/10_state.md R27). -/
inductive Mirroring where
  | horizontal
  | vertical
  | full
  | singleLow
  | singleHigh
  deriving DecidableEq, Repr

/-- The register decode targets of an MMC3 write (spec/30_encoding.md R93). -/
inductive Slot where
  | bankSelect
  | bankData
  | mirroring
  | prgMode
  | irqReload
  | irqClear
  | irqDisable
  | irqEnable
  | none
  deriving DecidableEq, Repr

/-- `SLOT_MAP`: the slot of each of the eight decode keys, a field named by its key (spec/30_encoding.md R91, R93). -/
structure SlotMap where
  k8000 : Slot
  k8001 : Slot
  kA000 : Slot
  kA001 : Slot
  kC000 : Slot
  kC001 : Slot
  kE000 : Slot
  kE001 : Slot
  deriving DecidableEq, Repr

/-- The construction parameters of R9, fixed for the life of the board (R8). `OPEN_BUS` is `Config.openBus`. -/
structure Params where
  board      : Board
  /-- `PRG`: the known bytes of the PRG ROM image. -/
  prg        : Machine.Memory
  prgSize    : Nat
  chrSize    : Nat
  chrIsRam   : Bool
  /-- `CHR_ROM`: the known bytes of the CHR ROM image. -/
  chrRom     : Machine.Memory
  /-- `CHR_RAM_INIT`: the known bytes of the CHR RAM at construction. -/
  chrRamInit : Machine.Memory
  /-- `WIRED_MIRRORING`. -/
  wired      : Mirroring
  altIrq     : Bool
  slotMap    : SlotMap
  a12Filter  : Nat
  deriving DecidableEq, Repr

namespace Config

/-- `OPEN_BUS`: what a CPU read the block does not decode returns (R9, spec/93_implementation_defined.md U12).
A free value, log entry 6. Safe. -/
opaque openBus : Byte

/-- The byte of the PRG ROM image at an offset the parameters do not list. A free value, log entry 7. Safe. -/
opaque prgByte : Nat → Byte

/-- The byte of the CHR ROM image at an offset the parameters do not list. A free value, log entry 7. Safe. -/
opaque chrRomByte : Nat → Byte

/-- The draw `CHR_RAM_INIT` at an offset neither listed nor written (spec/10_state.md R32, U13). A free value, log
entry 7. Safe. -/
opaque chrRamByte : Nat → Byte

end Config

end Sys2Proof
end

