-- ==== Sys2Proof/Syntax.lean ====
section
/-!
DEFINITION. The host's operations as they reach the ports (spec/30_encoding.md R90), and the instructions they decode to:
one constructor per row of spec/opcode_table.json.
-/

namespace Sys2Proof

/-- An operation as the host issues it (R90): the raw transaction, before any decode. The operand of a PPU form may be
wider than 14 bits (R102, R144). -/
inductive HostOp where
  | cw (a : BusAddr) (d : Byte)
  | cr (a : BusAddr)
  | pw (a : BusAddr) (d : Byte)
  | pr (a : BusAddr)
  | a12
  | reset
  | save
  | load (bytes : List Byte)
  | ack
  deriving DecidableEq, Repr

/-- What the host puts in front of the block: an operation, or, for a host that has only a PPU address stream, an address
for the optional edge detector (spec/44_irq_timer.md R211; log entry 15). -/
inductive HostInput where
  | op (o : HostOp)
  | ppuAddress (a : PpuAddr)
  deriving DecidableEq, Repr

/-- The decoded operations, in the order of spec/opcode_table.json. A bus form keeps its whole address: the bits the
decode ignores are still on the bus. -/
inductive Instr where
  | bankSelect (a : BusAddr) (d : Byte)
  | bankData (a : BusAddr) (d : Byte)
  | mirroring (a : BusAddr) (d : Byte)
  | prgMode (a : BusAddr) (d : Byte)
  | irqReload (a : BusAddr) (d : Byte)
  | irqClear (a : BusAddr) (d : Byte)
  | irqDisable (a : BusAddr) (d : Byte)
  | irqEnable (a : BusAddr) (d : Byte)
  | simpleWrite (a : BusAddr) (d : Byte)
  /-- A CPU write no register decodes: below $8000 (R101), or at a key a custom `SLOT_MAP` binds to `NONE`
  (spec/43_mmc3_registers.md R170; log entry 9). -/
  | cwUndecoded (a : BusAddr) (d : Byte)
  | crPrg (a : BusAddr)
  | crOpenBus (a : BusAddr)
  | prChr (a : PpuAddr)
  | prNotServed (a : PpuAddr)
  | pwChr (a : PpuAddr) (d : Byte)
  | pwNotServed (a : PpuAddr) (d : Byte)
  | a12
  | reset
  | save
  | load (bytes : List Byte)
  | ack
  deriving DecidableEq, Repr

end Sys2Proof
end

