-- ==== Sys2Proof/Decode.lean ====
section
/-!
DEFINITION. The decode of a host operation into an instruction (spec/30_encoding.md R91 to R104, spec/42_board_dispatch.md
R141 to R150), the encoder back to the operation, and the reading of a word of spec/opcode_table.json. The decode is total:
no encoding is illegal or reserved (R103).
-/

namespace Sys2Proof

/-- The decode key `a & $E001` (R91). -/
def decodeKey (a : BusAddr) : BusAddr := a &&& 0xE001#16

/-- The slot `SLOT_MAP` gives a write address with a[15] = 1 (R91, R93). -/
def slotAt (m : SlotMap) (a : BusAddr) : Slot :=
  let k := decodeKey a
  if k = 0x8000#16 then m.k8000
  else if k = 0x8001#16 then m.k8001
  else if k = 0xA000#16 then m.kA000
  else if k = 0xA001#16 then m.kA001
  else if k = 0xC000#16 then m.kC000
  else if k = 0xC001#16 then m.kC001
  else if k = 0xE000#16 then m.kE000
  else m.kE001

/-- The default `SLOT_MAP`, the table of R92. -/
def defaultSlotMap : SlotMap where
  k8000 := .bankSelect
  k8001 := .bankData
  kA000 := .mirroring
  kA001 := .prgMode
  kC000 := .irqReload
  kC001 := .irqClear
  kE000 := .irqDisable
  kE001 := .irqEnable

/-- The parameters of `State.reset`: the standing MMC3 configuration of spec/95_test_vectors.md, with no byte of an image
known. DESIGN CHOICE, log entry 4: which board is constructed is not the spec's to say. Unsafe for a statement about
`State.reset` alone. -/
def defaultParams : Params where
  board := .mmc3
  prg := []
  prgSize := 262144
  chrSize := 131072
  chrIsRam := false
  chrRom := []
  chrRamInit := []
  wired := .vertical
  altIrq := false
  slotMap := defaultSlotMap
  a12Filter := 0

/-- The instruction of a slot (spec/43_mmc3_registers.md R160). -/
def decodeSlot (slot : Slot) (a : BusAddr) (d : Byte) : Instr :=
  match slot with
  | .bankSelect => .bankSelect a d
  | .bankData => .bankData a d
  | .mirroring => .mirroring a d
  | .prgMode => .prgMode a d
  | .irqReload => .irqReload a d
  | .irqClear => .irqClear a d
  | .irqDisable => .irqDisable a d
  | .irqEnable => .irqEnable a d
  | .none => .cwUndecoded a d

/-- A CPU write (R142): undecoded below $8000, else by `BOARD`. -/
def decodeCpuWrite (p : Params) (a : BusAddr) (d : Byte) : Instr :=
  if a[15] = false then .cwUndecoded a d
  else
    match p.board with
    | .mmc3 => decodeSlot (slotAt p.slotMap a) a d
    | .simple => .simpleWrite a d

/-- A CPU read (R141). -/
def decodeCpuRead (a : BusAddr) : Instr :=
  if a[15] then .crPrg a else .crOpenBus a

/-- `a & $3FFF`: the 14 bits of a PPU address operand (R102). -/
def ppuReduce (a : BusAddr) : PpuAddr := a.setWidth 14

/-- A PPU read (R144): a CHR access when `a' < $2000`. -/
def decodePpuRead (a : PpuAddr) : Instr :=
  if a < 0x2000#14 then .prChr a else .prNotServed a

/-- A PPU write (R145). -/
def decodePpuWrite (a : PpuAddr) (d : Byte) : Instr :=
  if a < 0x2000#14 then .pwChr a d else .pwNotServed a d

/-- The instruction a host operation is, on a board constructed with `p`. -/
def decode (p : Params) : HostOp → Instr
  | .cw a d => decodeCpuWrite p a d
  | .cr a => decodeCpuRead a
  | .pw a d => decodePpuWrite (ppuReduce a) d
  | .pr a => decodePpuRead (ppuReduce a)
  | .a12 => .a12
  | .reset => .reset
  | .save => .save
  | .load bytes => .load bytes
  | .ack => .ack

/-- The operation of an instruction: its form, its address and its data (R90). -/
def encode : Instr → HostOp
  | .bankSelect a d => .cw a d
  | .bankData a d => .cw a d
  | .mirroring a d => .cw a d
  | .prgMode a d => .cw a d
  | .irqReload a d => .cw a d
  | .irqClear a d => .cw a d
  | .irqDisable a d => .cw a d
  | .irqEnable a d => .cw a d
  | .simpleWrite a d => .cw a d
  | .cwUndecoded a d => .cw a d
  | .crPrg a => .cr a
  | .crOpenBus a => .cr a
  | .prChr a => .pr (a.setWidth 16)
  | .prNotServed a => .pr (a.setWidth 16)
  | .pwChr a d => .pw (a.setWidth 16) d
  | .pwNotServed a d => .pw (a.setWidth 16) d
  | .a12 => .a12
  | .reset => .reset
  | .save => .save
  | .load bytes => .load bytes
  | .ack => .ack

/-- Why a word of the opcode table is no bus transaction. -/
inductive WordError where
  /-- Fewer than 16 bits: an event form has no bus encoding (R104). -/
  | noBusEncoding
  deriving DecidableEq, Repr

/-- The bus transaction a word of spec/opcode_table.json stands for. The table gives a bus form the 16 bits of its address
and no bits for its data byte or its form (R106): the data byte is read above the address, and the form is the CPU write.
DESIGN CHOICE, log entry 8: the same 16 bits serve the four bus forms. -/
def busWord (nbits w : Nat) : Except WordError HostOp :=
  if nbits < 16 then .error .noBusEncoding
  else
    let v := w % 2 ^ nbits
    .ok (.cw (BitVec.ofNat 16 v) (BitVec.ofNat 8 (v / 65536)))

/-- The instruction read from a word of the opcode table, by the decoder of the board `State.reset` constructs. -/
def decodeTableWord (nbits w : Nat) : Option Instr :=
  match busWord nbits w with
  | .ok o => some (decode defaultParams o)
  | .error _ => none

end Sys2Proof
end

