-- ==== Sys2Proof/Machine/State.lean ====
section
/-!
DEFINITION. The state of a board instance (spec/10_state.md R20 to R33), as plain data: the variant's register sets, the
mirroring mode, the bank-window table, the CHR RAM, the board-IRQ bit and the fault mark; the construction parameters,
which no operation changes (log entry 3); the optional edge detector (log entry 15); and the host's side of the ports.
-/

namespace Sys2Proof.Machine

/-- The two spaces windows cover (spec/41_bank_window.md R120). -/
inductive Space where
  | prg
  | chr
  deriving DecidableEq, Repr

/-- The window sizes (R120). -/
inductive BankUnit where
  | k1
  | k2
  | k8
  | k16
  deriving DecidableEq, Repr

/-- A bank window (R120): `index` counts banks of the window's own unit. -/
structure Window where
  space : Space
  base  : Nat
  unit  : BankUnit
  index : Nat
  deriving DecidableEq, Repr

/-- The faults of the block, each with its recorded info (spec/60_exceptions.md R303). One is first the fault mark of
`State` (R33); from then on every operation answers `.fault` with it, since no operation has a step (log entry 5). -/
inductive Fault where
  /-- A window read or write whose offset reaches the image size, raised by `translate` (spec/41_bank_window.md R122); or an
  address no window of the table covers, raised by the same accesses with no window recorded (log entry 11). No run of a
  board the construction accepts raises it (R125). Safe. -/
  | outOfBounds (space : Space) (window : Option Window) (a : Nat)
  /-- `LOAD` of a stream shorter than the board's layout (spec/46_state_codec.md R259). Safe: the spec's own fault. -/
  | codecUnderrun (needed available : Nat)
  deriving DecidableEq, Repr

/-- The reasons an operation or a construction is refused. -/
inductive Refusal where
  /-- An arm of `exec` that has no meaning yet. No arm raises it. Safe. -/
  | notModelled (mnemonic : String)
  /-- `Config(PrgSize)`, raised by `construct` with the offending size (spec/60_exceptions.md R301). Safe: the spec's own
  refusal. -/
  | configPrgSize (size : Nat)
  /-- `Config(ChrSize)`, raised by `construct` with the offending size (R301). Safe: the spec's own refusal. -/
  | configChrSize (size : Nat)
  deriving DecidableEq, Repr

/-- The MMC3 register set (spec/10_state.md R21 to R25): what the codec persists. -/
structure Mmc3Regs where
  flagC           : Bool
  flagP           : Bool
  latch           : Word
  chr             : Vector Word 6
  prg             : Vector Word 4
  irqEnabled      : Bool
  irqCounter      : Byte
  priorIrqCounter : Word
  irqReload       : Byte
  irqClearPending : Bool
  deriving DecidableEq, Repr

/-- The SIMPLE register set (R31). -/
structure SimpleRegs where
  chrBank : Word
  prgBank : Word
  deriving DecidableEq, Repr

/-- The optional edge detector (spec/44_irq_timer.md R211). -/
structure EdgeDetector where
  a12Prev : Bool
  lowRun  : Nat
  deriving DecidableEq, Repr

/-- The state. -/
structure State where
  /-- The construction parameters (spec/00_scope.md R9); constant (R8). -/
  params    : Params
  /-- The MMC3 register set; zero and untouched on a SIMPLE board (log entry 14). -/
  mmc3      : Mmc3Regs
  /-- The SIMPLE register set; zero and untouched on an MMC3 board (log entry 14). -/
  simple    : SimpleRegs
  mirroring : Mirroring
  /-- The board-origin bit of the shared interrupt register (R29). -/
  irqBoard  : Bool
  /-- The bank-window table (R30). -/
  windows   : List Window
  /-- The CHR RAM bytes written or known at construction (R32). -/
  chrRam    : Memory
  /-- The fault mark (R33). -/
  fault     : Option Fault
  detector  : EdgeDetector
  /-- The model's own: the rest of the host's operation sequence (log entry 1). -/
  pending   : List HostInput
  /-- The model's own: what the last read operation returned (log entry 12). -/
  readData  : Option Byte
  /-- The model's own: the state stream `SAVE` appends to (log entry 13). -/
  stream    : List Byte
  /-- The model's own: what the last `LOAD` left unread of its stream (log entry 13). -/
  unread    : List Byte
  deriving DecidableEq, Repr

/-- The state right after the hard reset that ends the construction of the board of `defaultParams`
(spec/10_state.md R38, R40, R41). The register values are the spec's decisions D5, D13 and D14; the parameters are log
entry 4. `Sys2Proof.Laws.construct_defaultParams` says that this is what `construct` builds. -/
def State.reset : State where
  params := defaultParams
  mmc3 := {
    flagC := false
    flagP := false
    latch := 0
    chr := #v[0, 0, 0, 0, 0, 0]
    prg := #v[0, 1, 30, 31]
    irqEnabled := false
    irqCounter := 0
    priorIrqCounter := 0
    irqReload := 255
    irqClearPending := false }
  simple := { chrBank := 0, prgBank := 0 }
  mirroring := .vertical
  irqBoard := false
  windows := [
    { space := .chr, base := 0x0000, unit := .k2, index := 0 },
    { space := .chr, base := 0x0800, unit := .k2, index := 0 },
    { space := .chr, base := 0x1000, unit := .k1, index := 0 },
    { space := .chr, base := 0x1400, unit := .k1, index := 0 },
    { space := .chr, base := 0x1800, unit := .k1, index := 0 },
    { space := .chr, base := 0x1C00, unit := .k1, index := 0 },
    { space := .prg, base := 0x8000, unit := .k8, index := 0 },
    { space := .prg, base := 0xA000, unit := .k8, index := 1 },
    { space := .prg, base := 0xC000, unit := .k8, index := 30 },
    { space := .prg, base := 0xE000, unit := .k8, index := 31 } ]
  chrRam := []
  fault := none
  detector := { a12Prev := false, lowRun := 0 }
  pending := []
  readData := none
  stream := []
  unread := []

end Sys2Proof.Machine
end

