-- ==== Sys2Proof/Machine/Ops.lean ====
section
/-!
DEFINITION. The named operations the instructions share: raising a fault, bytes by offset, the bank-window primitive
(spec/41_bank_window.md), Recompute of both variants (spec/43_mmc3_registers.md R171 to R173, spec/45_simple_switcher.md
R235), the hard reset (spec/70_reset_and_hazards.md R340 to R342) and the construction (spec/42_board_dispatch.md R146).
The block takes no exception and returns from none (spec/60_exceptions.md R309); what it has instead is `State.raise`.
-/

namespace Sys2Proof.Machine

abbrev Outcome := Host.Outcome State Fault Refusal

/-! ### The fault mark -/

/-- `raise Fault(...)`: the mark is set and nothing further of the operation happens (spec/00_scope.md R14, R303). -/
def State.raise (f : Fault) (s : State) : State := { s with fault := some f }

/-- Every port first checks `fault = none`; while a fault is recorded no operation has a step (R33, R303). -/
def running (s : State) (k : State → Outcome) : Outcome :=
  match s.fault with
  | some f => .fault f
  | none => k s

/-- An operation only `b` implements: on the other board it is that variant's no-op (R10; log entry 10). -/
def onBoard (b : Board) (s : State) (f : State → State) : Outcome :=
  running s fun s => .next (if s.params.board = b then f s else s)

/-! ### Bytes by offset -/

/-- The byte listed at an offset. -/
def Memory.read (m : Memory) (o : Nat) : Option Byte :=
  match m with
  | [] => none
  | (k, v) :: m => if k = o then some v else Memory.read m o

/-- List a byte at an offset, in place of the one listed there. -/
def Memory.write (m : Memory) (o : Nat) (v : Byte) : Memory :=
  match m with
  | [] => [(o, v)]
  | (k, u) :: m =>
    if o < k then (o, v) :: (k, u) :: m
    else if o = k then (o, v) :: m
    else (k, u) :: Memory.write m o v

/-- The canonical form: offsets strictly rising. An unlisted offset reads as a free value, so no listed byte equals it
by any proof, and a write never removes an entry (log entry 7). -/
abbrev Memory.wf (m : Memory) : Prop := List.Pairwise (fun x y => x.1 < y.1) m

/-- `PrgRom(o)` (R14). -/
def prgRom (p : Params) (o : Nat) : Byte :=
  match Memory.read p.prg o with
  | some v => v
  | none => Config.prgByte o

/-- `ChrRead(o)`: the byte of the CHR image, RAM or ROM (R14). -/
def chrRead (s : State) (o : Nat) : Byte :=
  if s.params.chrIsRam then
    match Memory.read s.chrRam o with
    | some v => v
    | none => Config.chrRamByte o
  else
    match Memory.read s.params.chrRom o with
    | some v => v
    | none => Config.chrRomByte o

/-! ### Bank windows -/

/-- A unit's size in bytes (spec/00_scope.md R17). -/
def BankUnit.bytes : BankUnit → Nat
  | .k1 => 1024
  | .k2 => 2048
  | .k8 => 8192
  | .k16 => 16384

/-- `imageSize(space)` (R121). -/
def imageSize (p : Params) : Space → Nat
  | .prg => p.prgSize
  | .chr => p.chrSize

/-- `b & (count - 1)`, the 32-bit two's-complement AND (R121, R13). -/
def bankIndex (count : Nat) (b : Word) : Nat := (b &&& BitVec.ofNat 32 (count - 1)).toNat

/-- `assign(w, b)` for the window of a space, base and unit (R121). -/
def assign (p : Params) (space : Space) (base : Nat) (unit : BankUnit) (b : Word) : Window where
  space := space
  base := base
  unit := unit
  index := bankIndex (imageSize p space / unit.bytes) b

/-- The window's range holds the bus address (R120). -/
def Window.covers (w : Window) (space : Space) (a : Nat) : Bool :=
  w.space == space && decide (w.base ≤ a) && decide (a < w.base + w.unit.bytes)

/-- `lookup(space, a)` (R123). -/
def lookup (ws : List Window) (space : Space) (a : Nat) : Option Window :=
  ws.find? fun w => w.covers space a

/-- `translate(w, a)`: the image offset, or the fault it raises (R122). -/
def windowTranslate (p : Params) (w : Window) (a : Nat) : Except Fault Nat :=
  let o := w.index * w.unit.bytes + (a - w.base)
  if imageSize p w.space ≤ o then .error (.outOfBounds w.space (some w) a) else .ok o

/-- `translate(lookup(space, a), a)`, the offset every window access goes to (R124). An address no window covers is out of
bounds too (log entry 11). -/
def windowOffset (s : State) (space : Space) (a : Nat) : Except Fault Nat :=
  match lookup s.windows space a with
  | some w => windowTranslate s.params w a
  | none => .error (.outOfBounds space none a)

/-! ### Recompute -/

/-- An arithmetic right shift by one: a 2K register before use (R12, R172). -/
def shr1 (w : Word) : Word := w.sshiftRight 1

/-- The CHR layout of MMC3 (R172). -/
def mmc3ChrWindows (p : Params) (r : Mmc3Regs) : List Window :=
  let base2 := if r.flagC then 0x1000 else 0x0000
  let base1 := if r.flagC then 0x0000 else 0x1000
  [ assign p .chr base2 .k2 (shr1 r.chr[0]),
    assign p .chr (base2 + 0x0800) .k2 (shr1 r.chr[1]),
    assign p .chr base1 .k1 r.chr[2],
    assign p .chr (base1 + 0x0400) .k1 r.chr[3],
    assign p .chr (base1 + 0x0800) .k1 r.chr[4],
    assign p .chr (base1 + 0x0C00) .k1 r.chr[5] ]

/-- The PRG layout of MMC3 (R173). -/
def mmc3PrgWindows (p : Params) (r : Mmc3Regs) : List Window :=
  [ assign p .prg 0x8000 .k8 (if r.flagP then r.prg[2] else r.prg[0]),
    assign p .prg 0xA000 .k8 r.prg[1],
    assign p .prg 0xC000 .k8 (if r.flagP then r.prg[0] else r.prg[2]),
    assign p .prg 0xE000 .k8 r.prg[3] ]

/-- `m16P = n16P - 1` (R9): the SIMPLE board's constant high bank (R231). -/
def m16P (p : Params) : Nat := p.prgSize / 16384 - 1

/-- The SIMPLE windows (R235). The high window holds the constant `m16P` itself, since `m16P & (n16P - 1) = m16P`. -/
def simpleWindows (p : Params) (r : SimpleRegs) : List Window :=
  [ assign p .prg 0x8000 .k16 r.prgBank,
    { space := .prg, base := 0xC000, unit := .k16, index := m16P p },
    assign p .chr 0x0000 .k8 r.chrBank ]

/-- The window table the registers give: CHR, then PRG (R30, R171, R235). -/
def windowTable (p : Params) (r : Mmc3Regs) (q : SimpleRegs) : List Window :=
  match p.board with
  | .mmc3 => mmc3ChrWindows p r ++ mmc3PrgWindows p r
  | .simple => simpleWindows p q

/-- `Recompute()` (R171, R235): reads only registers, writes only the window table. -/
def State.recompute (s : State) : State := { s with windows := windowTable s.params s.mmc3 s.simple }

/-! ### Hard reset and construction -/

/-- `m8P = n8P - 1` (R9), as an `int32`. -/
def m8P (p : Params) : Word := BitVec.ofNat 32 (p.prgSize / 8192) - 1

/-- The MMC3 reset values (spec/10_state.md R38, spec/70_reset_and_hazards.md R340; the spec's decisions D5 and D13). -/
def resetMmc3 (p : Params) : Mmc3Regs where
  flagC := false
  flagP := false
  latch := 0
  chr := #v[0, 0, 0, 0, 0, 0]
  prg := #v[0, 1, m8P p - 1, m8P p]
  irqEnabled := false
  irqCounter := 0
  priorIrqCounter := 0
  irqReload := 255
  irqClearPending := false

/-- The SIMPLE reset values (R39, R341; the spec's decision D20). -/
def resetSimple : SimpleRegs := { chrBank := 0, prgBank := 0 }

/-- The edge detector's reset values (spec/44_irq_timer.md R211). -/
def resetDetector : EdgeDetector := { a12Prev := false, lowRun := 0 }

/-- `HardReset()` of the variant (R340, R341), then the board-IRQ bit (R342). The optional edge detector takes its reset
values with the board: a hard reset is the only reset there is, and none spares a register (R344; log entry 15). -/
def hardReset (s : State) : State :=
  let s :=
    match s.params.board with
    | .mmc3 => { s with mmc3 := resetMmc3 s.params, mirroring := s.params.wired }
    | .simple => { s with simple := resetSimple, mirroring := s.params.wired }
  { s.recompute with irqBoard := false, detector := resetDetector }

/-- `size = unit * 2^k` for some k (R9). -/
def unitTimesPowerOfTwo (unit size : Nat) : Bool := size == unit * 2 ^ Nat.log2 (size / unit)

/-- The unit the PRG image of a variant is a power of two of (R9). -/
def prgUnit : Board → Nat
  | .mmc3 => 8192
  | .simple => 16384

/-- A register set no reset has written: the one of the variant the board is not (log entry 14). -/
def blankMmc3 : Mmc3Regs where
  flagC := false
  flagP := false
  latch := 0
  chr := #v[0, 0, 0, 0, 0, 0]
  prg := #v[0, 0, 0, 0]
  irqEnabled := false
  irqCounter := 0
  priorIrqCounter := 0
  irqReload := 0
  irqClearPending := false

/-- The board before the hard reset of its construction (R146): CHR RAM holds `CHR_RAM_INIT`, no fault. -/
def unreset (p : Params) : State where
  params := p
  mmc3 := blankMmc3
  simple := { chrBank := 0, prgBank := 0 }
  mirroring := p.wired
  irqBoard := false
  windows := []
  chrRam := if p.chrIsRam then p.chrRamInit else []
  fault := none
  detector := resetDetector
  pending := []
  readData := none
  stream := []
  unread := []

/-- Construction (R146): refused on a size the variant's units do not divide into a power of two of banks (R301), else the
board after a hard reset. -/
def construct (p : Params) : Outcome :=
  if unitTimesPowerOfTwo (prgUnit p.board) p.prgSize = false then .refused (.configPrgSize p.prgSize)
  else if unitTimesPowerOfTwo 8192 p.chrSize = false then .refused (.configChrSize p.chrSize)
  else .next (hardReset (unreset p))

/-! ### Window accesses -/

/-- `WindowRead(PRG, a)` (R124). -/
def windowReadPrg (s : State) (a : Nat) : Except Fault Byte :=
  match windowOffset s .prg a with
  | .ok o => .ok (prgRom s.params o)
  | .error f => .error f

/-- `WindowRead(CHR, a)` (R124). -/
def windowReadChr (s : State) (a : Nat) : Except Fault Byte :=
  match windowOffset s .chr a with
  | .ok o => .ok (chrRead s o)
  | .error f => .error f

/-- `WindowWrite(CHR, a, v)`: a byte of CHR RAM, no effect on ROM (R124, R127). -/
def windowWriteChr (s : State) (a : Nat) (v : Byte) : State :=
  match windowOffset s .chr a with
  | .ok o => if s.params.chrIsRam then { s with chrRam := Memory.write s.chrRam o v } else s
  | .error f => s.raise f

/-- What a read operation returns to the host: `none` where the block returns nothing (R90, R144; log entry 12). -/
def State.putReadData (d : Option Byte) (s : State) : State := { s with readData := d }

/-- A read operation's end: the byte to the host, or the fault raised. -/
def finishRead (s : State) : Except Fault Byte → State
  | .ok v => s.putReadData (some v)
  | .error f => s.raise f

end Sys2Proof.Machine
end

