-- ==== Sys2Proof/Machine/Codec.lean ====
section
/-!
DEFINITION. The positional save and restore codec (spec/46_state_codec.md): the field encodings (R251), the two layouts
(R252, R253) and their reading (R256, R257).
-/

namespace Sys2Proof.Machine

/-- A `bool` field: $00 or $01 (R251). -/
def boolBytes (b : Bool) : List Byte := [if b then 1 else 0]

/-- An `int32` field: four bytes, least significant first (R251). -/
def int32Bytes (w : Word) : List Byte :=
  [w.extractLsb' 0 8, w.extractLsb' 8 8, w.extractLsb' 16 8, w.extractLsb' 24 8]

/-- The MMC3 layout, 54 bytes, a field a line of the table (R252). -/
def saveMmc3 (r : Mmc3Regs) : List Byte :=
  List.flatten
    [ boolBytes r.flagC,
      boolBytes r.flagP,
      int32Bytes r.latch,
      int32Bytes r.chr[0], int32Bytes r.chr[1], int32Bytes r.chr[2],
      int32Bytes r.chr[3], int32Bytes r.chr[4], int32Bytes r.chr[5],
      int32Bytes r.prg[0], int32Bytes r.prg[1], int32Bytes r.prg[2], int32Bytes r.prg[3],
      boolBytes r.irqEnabled,
      [r.irqCounter],
      int32Bytes r.priorIrqCounter,
      [r.irqReload],
      boolBytes r.irqClearPending ]

/-- The SIMPLE layout, 8 bytes (R253). -/
def saveSimple (r : SimpleRegs) : List Byte := int32Bytes r.chrBank ++ int32Bytes r.prgBank

/-- The bytes the board's layout gives its registers (R252, R253). -/
def saveBytes (s : State) : List Byte :=
  match s.params.board with
  | .mmc3 => saveMmc3 s.mmc3
  | .simple => saveSimple s.simple

/-- How many bytes a `LOAD` needs (R255). -/
def layoutSize : Board → Nat
  | .mmc3 => 54
  | .simple => 8

/-- Byte `o` of a stream that is long enough. -/
def byteAt (b : List Byte) (o : Nat) : Byte := b.getD o 0

/-- `bl(o)`: any nonzero byte reads as 1 (R251). -/
def boolAt (b : List Byte) (o : Nat) : Bool := byteAt b o != 0

/-- `i32(o)`: the little-endian `int32` at an offset (R251, R256). -/
def int32At (b : List Byte) (o : Nat) : Word :=
  byteAt b (o + 3) ++ byteAt b (o + 2) ++ byteAt b (o + 1) ++ byteAt b o

/-- The MMC3 registers of a stream (R256). No range is checked. -/
def loadMmc3 (b : List Byte) : Mmc3Regs where
  flagC := boolAt b 0
  flagP := boolAt b 1
  latch := int32At b 2
  chr := #v[int32At b 6, int32At b 10, int32At b 14, int32At b 18, int32At b 22, int32At b 26]
  prg := #v[int32At b 30, int32At b 34, int32At b 38, int32At b 42]
  irqEnabled := boolAt b 46
  irqCounter := byteAt b 47
  priorIrqCounter := int32At b 48
  irqReload := byteAt b 52
  irqClearPending := boolAt b 53

/-- The SIMPLE registers of a stream (R257). -/
def loadSimple (b : List Byte) : SimpleRegs where
  chrBank := int32At b 0
  prgBank := int32At b 4

/-- The board with its registers read from a stream (R256, R257). Nothing else changes (R260). -/
def loadRegs (b : List Byte) (s : State) : State :=
  match s.params.board with
  | .mmc3 => { s with mmc3 := loadMmc3 b }
  | .simple => { s with simple := loadSimple b }

/-- `LOAD s` (R255, R258, R259): underrun when the stream is shorter than the layout, else registers, windows, and the
bytes after the layout left unread. -/
def loadStream (b : List Byte) (s : State) : State :=
  let needed := layoutSize s.params.board
  if b.length < needed then s.raise (.codecUnderrun needed b.length)
  else { (loadRegs b s).recompute with unread := b.drop needed }

end Sys2Proof.Machine
end

