-- ==== Sys2Proof/Machine/Flags.lean ====
section
/-!
DEFINITION. The flags of the scanline timer (spec/44_irq_timer.md): the three steps of an edge (R201 to R204), the
clear-pending flag of the reload and clear writes (spec/43_mmc3_registers.md R165, R166), the derived phase (R212), and the
optional edge detector (R211).
-/

namespace Sys2Proof.Machine

/-- Edge, step 1: the prior counter is remembered, the counter reloads or counts down (R201). -/
def edgeCount (r : Mmc3Regs) : Mmc3Regs :=
  { r with
    priorIrqCounter := zext32 r.irqCounter
    irqCounter := if r.irqCounter = 0 ∨ r.irqClearPending = true then r.irqReload else r.irqCounter - 1 }

/-- Edge, step 2: whether the edge asserts, read from the registers step 1 leaves (R202). -/
def edgeAsserts (altIrq : Bool) (r : Mmc3Regs) : Bool :=
  (!altIrq || r.priorIrqCounter != 0 || r.irqClearPending) && r.irqCounter == 0 && r.irqEnabled

/-- Edge, step 3: the clear is consumed (R203). -/
def edgeConsume (r : Mmc3Regs) : Mmc3Regs := { r with irqClearPending := false }

/-- `IrqEdge()`: the three steps in order (R204). No step clears the board-IRQ bit. -/
def irqEdge (s : State) : State :=
  let r := edgeCount s.mmc3
  { s with
    mmc3 := edgeConsume r
    irqBoard := s.irqBoard || edgeAsserts s.params.altIrq r }

/-- `irq_counter <- 0`, and the clear request under `ALT_IRQ`: what the reload and the clear write share (R165, R166). -/
def zeroCounter (altIrq : Bool) (r : Mmc3Regs) : Mmc3Regs :=
  { r with irqCounter := 0, irqClearPending := altIrq || r.irqClearPending }

/-- The source's three timer states (R200, R212). -/
inductive TimerPhase where
  | idle
  | armed
  | fired
  deriving DecidableEq, Repr

/-- The state the registers show (R212). -/
def timerPhase (s : State) : TimerPhase :=
  if s.irqBoard then .fired else if s.mmc3.irqEnabled then .armed else .idle

/-- One PPU address at the optional detector: whether it delivers `A12`, read before the update (R211). -/
def detectorDelivers (filter : Nat) (e : EdgeDetector) (a : PpuAddr) : Bool :=
  a[12] && !e.a12Prev && decide (filter ≤ e.lowRun)

/-- One PPU address at the optional detector: its next state (R211). -/
def detectorNext (e : EdgeDetector) (a : PpuAddr) : EdgeDetector where
  a12Prev := a[12]
  lowRun := if a[12] then 0 else e.lowRun + 1

end Sys2Proof.Machine
end

