-- ==== Sys2Proof/Machine/Events.lean ====
section
/-!
DEFINITION. The event forms (spec/42_board_dispatch.md R147 to R150): the address-line-12 edge, the hard reset, the state
write and read, and the host's acknowledge.
-/

namespace Sys2Proof.Machine

/-- `A12` (R147): the edge of spec/44_irq_timer.md R204 on MMC3, no effect on SIMPLE (R209, R234). -/
def execA12 (s : State) : Outcome :=
  onBoard .mmc3 s irqEdge

/-- `RESET` (R148). -/
def execReset (s : State) : Outcome :=
  running s fun s => .next (hardReset s)

/-- `SAVE` (R149, spec/46_state_codec.md R252, R253): appends the board's layout to the state stream. -/
def execSave (s : State) : Outcome :=
  running s fun s => .next { s with stream := s.stream ++ saveBytes s }

/-- `LOAD s` (R149, spec/46_state_codec.md R255 to R259). -/
def execLoad (bytes : List Byte) (s : State) : Outcome :=
  running s fun s => .next (loadStream bytes s)

/-- `ACK` (R150, spec/60_exceptions.md R305): the host clears the board-IRQ bit. -/
def execAck (s : State) : Outcome :=
  running s fun s => .next { s with irqBoard := false }

end Sys2Proof.Machine
end

