-- ==== Sys2Proof/Machine/Operands.lean ====
section
/-!
DEFINITION. The data fields of the register writes (spec/30_encoding.md R94 to R100). A bit no field names is ignored.
-/

namespace Sys2Proof.Machine

/-- `BANK_SELECT` field R, d[2:0], zero-extended (R94, R161). -/
def fieldR (d : Byte) : Word := (d.extractLsb' 0 3).setWidth 32

/-- `BANK_SELECT` field P, d[6] (R94). -/
def fieldP (d : Byte) : Bool := d[6]

/-- `BANK_SELECT` field C, d[7] (R94). -/
def fieldC (d : Byte) : Bool := d[7]

/-- `MIRRORING` field M, d[0]: 1 Horizontal, 0 Vertical (R96). -/
def fieldM (d : Byte) : Mirroring := if d[0] then .horizontal else .vertical

/-- `SIMPLE_WRITE` field CB, d[1:0], zero-extended (R100, R232). -/
def fieldCB (d : Byte) : Word := zext32 (d &&& 3#8)

/-- `SIMPLE_WRITE` field PB, d[5:2], zero-extended (R100, R232). -/
def fieldPB (d : Byte) : Word := zext32 ((d >>> 2) &&& 0xF#8)

/-- The register file a `BANK_DATA` write leaves: the whole byte in the register `latch` selects, none outside 0..7
(R95, R162, R163). -/
def putBankData (r : Mmc3Regs) (d : Byte) : Mmc3Regs :=
  if r.latch = 0 then { r with chr := r.chr.set 0 (zext32 d) }
  else if r.latch = 1 then { r with chr := r.chr.set 1 (zext32 d) }
  else if r.latch = 2 then { r with chr := r.chr.set 2 (zext32 d) }
  else if r.latch = 3 then { r with chr := r.chr.set 3 (zext32 d) }
  else if r.latch = 4 then { r with chr := r.chr.set 4 (zext32 d) }
  else if r.latch = 5 then { r with chr := r.chr.set 5 (zext32 d) }
  else if r.latch = 6 then { r with prg := r.prg.set 0 (zext32 d) }
  else if r.latch = 7 then { r with prg := r.prg.set 1 (zext32 d) }
  else r

end Sys2Proof.Machine
end

