-- ==== Sys2Proof/Machine/Mmc3.lean ====
section
/-!
DEFINITION. The MMC3 register writes (spec/43_mmc3_registers.md R160 to R170), one meaning per slot. The address has chosen
the slot and has no other effect (spec/30_encoding.md R91).
-/

namespace Sys2Proof.Machine

/-- `BANK_SELECT` (R161). -/
def execBankSelect (_a : BusAddr) (d : Byte) (s : State) : Outcome :=
  onBoard .mmc3 s fun s =>
    State.recompute { s with mmc3 := { s.mmc3 with latch := fieldR d, flagP := fieldP d, flagC := fieldC d } }

/-- `BANK_DATA` (R162, R163): the windows are recomputed whether or not the latch selects a register. -/
def execBankData (_a : BusAddr) (d : Byte) (s : State) : Outcome :=
  onBoard .mmc3 s fun s => State.recompute { s with mmc3 := putBankData s.mmc3 d }

/-- `MIRRORING` (R164): silently ignored when the wiring is Full. -/
def execMirroring (_a : BusAddr) (d : Byte) (s : State) : Outcome :=
  onBoard .mmc3 s fun s => if s.params.wired = .full then s else { s with mirroring := fieldM d }

/-- `PRG_MODE` (R169): no effect. -/
def execPrgMode (_a : BusAddr) (_d : Byte) (s : State) : Outcome :=
  onBoard .mmc3 s fun s => s

/-- `IRQ_RELOAD` (R165): the counter is zeroed at once. -/
def execIrqReload (_a : BusAddr) (d : Byte) (s : State) : Outcome :=
  onBoard .mmc3 s fun s => { s with mmc3 := zeroCounter s.params.altIrq { s.mmc3 with irqReload := d } }

/-- `IRQ_CLEAR` (R166). -/
def execIrqClear (_a : BusAddr) (_d : Byte) (s : State) : Outcome :=
  onBoard .mmc3 s fun s => { s with mmc3 := zeroCounter s.params.altIrq s.mmc3 }

/-- `IRQ_DISABLE` (R167): also the acknowledgment. -/
def execIrqDisable (_a : BusAddr) (_d : Byte) (s : State) : Outcome :=
  onBoard .mmc3 s fun s => { s with mmc3 := { s.mmc3 with irqEnabled := false }, irqBoard := false }

/-- `IRQ_ENABLE` (R168): does not clear the board-IRQ bit. -/
def execIrqEnable (_a : BusAddr) (_d : Byte) (s : State) : Outcome :=
  onBoard .mmc3 s fun s => { s with mmc3 := { s.mmc3 with irqEnabled := true } }

end Sys2Proof.Machine
end

