-- ==== Sys2Proof/Machine/Ports.lean ====
section
/-!
DEFINITION. The bus ports other than the register writes (spec/42_board_dispatch.md R141 to R145): reads change nothing but
what the host has read (spec/20_memory.md R69).
-/

namespace Sys2Proof.Machine

/-- `CW_UNDECODED` (R143, spec/30_encoding.md R101; `NONE`, spec/43_mmc3_registers.md R170): no effect. -/
def execCwUndecoded (_a : BusAddr) (_d : Byte) (s : State) : Outcome :=
  running s .next

/-- `CR_PRG` (R141): the byte through the PRG window. -/
def execCrPrg (a : BusAddr) (s : State) : Outcome :=
  running s fun s => .next (finishRead s (windowReadPrg s a.toNat))

/-- `CR_OPEN_BUS` (R141, R143): the block does not drive the bus, and the read returns the free value `OPEN_BUS`. -/
def execCrOpenBus (_a : BusAddr) (s : State) : Outcome :=
  running s fun s => .next (s.putReadData (some Config.openBus))

/-- `PR_CHR` (R144): the byte through the CHR window. -/
def execPrChr (a : PpuAddr) (s : State) : Outcome :=
  running s fun s => .next (finishRead s (windowReadChr s a.toNat))

/-- `PR_NOT_SERVED` (R144): the block returns nothing. -/
def execPrNotServed (_a : PpuAddr) (s : State) : Outcome :=
  running s fun s => .next (s.putReadData none)

/-- `PW_CHR` (R145, spec/41_bank_window.md R127). -/
def execPwChr (a : PpuAddr) (d : Byte) (s : State) : Outcome :=
  running s fun s => .next (windowWriteChr s a.toNat d)

/-- `PW_NOT_SERVED` (R145): no effect on the block. -/
def execPwNotServed (_a : PpuAddr) (_d : Byte) (s : State) : Outcome :=
  running s .next

end Sys2Proof.Machine
end

