-- ==== Sys2Proof/Machine/Simple.lean ====
section
/-!
DEFINITION. The SIMPLE variant's single write register (spec/45_simple_switcher.md R232).
-/

namespace Sys2Proof.Machine

/-- `SIMPLE_WRITE` (R232): no bus conflict, the written byte is used as driven. -/
def execSimpleWrite (_a : BusAddr) (d : Byte) (s : State) : Outcome :=
  onBoard .simple s fun s =>
    State.recompute { s with simple := { chrBank := fieldCB d, prgBank := fieldPB d } }

end Sys2Proof.Machine
end

