-- ==== Sys2Proof/Machine/Dispatch.lean ====
section
/-!
DEFINITION. One arm per row of spec/opcode_table.json.
-/

namespace Sys2Proof.Machine

def exec (i : Instr) (s : State) : Host.Outcome State Fault Refusal :=
  match i with
  -- MMC3 register writes
  | .bankSelect a d => Sys2Proof.Machine.execBankSelect a d s
  | .bankData a d => Sys2Proof.Machine.execBankData a d s
  | .mirroring a d => Sys2Proof.Machine.execMirroring a d s
  | .prgMode a d => Sys2Proof.Machine.execPrgMode a d s
  | .irqReload a d => Sys2Proof.Machine.execIrqReload a d s
  | .irqClear a d => Sys2Proof.Machine.execIrqClear a d s
  | .irqDisable a d => Sys2Proof.Machine.execIrqDisable a d s
  | .irqEnable a d => Sys2Proof.Machine.execIrqEnable a d s
  -- SIMPLE register write
  | .simpleWrite a d => Sys2Proof.Machine.execSimpleWrite a d s
  -- bus ports
  | .cwUndecoded a d => Sys2Proof.Machine.execCwUndecoded a d s
  | .crPrg a => Sys2Proof.Machine.execCrPrg a s
  | .crOpenBus a => Sys2Proof.Machine.execCrOpenBus a s
  | .prChr a => Sys2Proof.Machine.execPrChr a s
  | .prNotServed a => Sys2Proof.Machine.execPrNotServed a s
  | .pwChr a d => Sys2Proof.Machine.execPwChr a d s
  | .pwNotServed a d => Sys2Proof.Machine.execPwNotServed a d s
  -- events
  | .a12 => Sys2Proof.Machine.execA12 s
  | .reset => Sys2Proof.Machine.execReset s
  | .save => Sys2Proof.Machine.execSave s
  | .load bytes => Sys2Proof.Machine.execLoad bytes s
  | .ack => Sys2Proof.Machine.execAck s

end Sys2Proof.Machine
end

