-- ==== Sys2Proof/Machine/Fetch.lean ====
section
/-!
DEFINITION. The host's input sequence (spec/00_scope.md R7): taking its next item, an operation or an address sample for the
optional edge detector (spec/44_irq_timer.md R211), and placing an operation in front of it.
-/

namespace Sys2Proof.Machine

/-- The sequence with its first item taken. -/
def State.putPending (l : List HostInput) (s : State) : State := { s with pending := l }

/-- One PPU address at the edge detector: its state moves on, and where it delivers an edge the `A12` operation runs
(R211). -/
def sampleAddress (a : PpuAddr) (s : State) : Outcome :=
  running s fun s =>
    let moved := { s with detector := detectorNext s.detector a }
    if detectorDelivers s.params.a12Filter s.detector a then exec .a12 moved else .next moved

/-- The next item of the sequence: an operation is decoded and run; with no item left nothing happens (log entry 2). -/
def runNext (s : State) : Outcome :=
  match s.pending with
  | [] => running s .next
  | .op o :: rest => exec (decode s.params o) (s.putPending rest)
  | .ppuAddress a :: rest => sampleAddress a (s.putPending rest)

/-- The operation a word of the opcode table stands for, in front of the sequence; a word with no bus encoding leaves the
sequence as it is (log entry 8). -/
def placeWord (s : State) (nbits w : Nat) : State :=
  match busWord nbits w with
  | .ok o => s.putPending (.op o :: s.pending)
  | .error _ => s

end Sys2Proof.Machine
end

