-- ==== Sys2Proof/Machine/ClosedForms.lean ====
section
/-!
DEFINITION. The closed forms of the window layouts, computed from the registers with no window table
(spec/43_mmc3_registers.md R175, spec/45_simple_switcher.md R235). No instruction uses them: statements compare the table
with them.
-/

namespace Sys2Proof.Machine

/-- `m1C`, `m2C`, `m8C` and the like: the mask of a count of banks (spec/00_scope.md R9). -/
def bankMask (size unitBytes : Nat) : Word := BitVec.ofNat 32 (size / unitBytes - 1)

/-- The MMC3 CHR offset of a PPU address below $2000 (R175). -/
def mmc3ChrOffset (p : Params) (r : Mmc3Regs) (a : PpuAddr) : Nat :=
  let q := (a.extractLsb' 10 3 ^^^ (if r.flagC then 4#3 else 0#3)).toNat
  let bank1K :=
    if q < 4 then ((r.chr[q / 2]?.getD 0).sshiftRight 1 &&& bankMask p.chrSize 2048).toNat * 2 + q % 2
    else (r.chr[q - 2]?.getD 0 &&& bankMask p.chrSize 1024).toNat
  bank1K * 1024 + (a.extractLsb' 0 10).toNat

/-- The MMC3 PRG offset of a CPU address from $8000 up (R175). -/
def mmc3PrgOffset (p : Params) (r : Mmc3Regs) (a : BusAddr) : Nat :=
  let reg :=
    match (a.extractLsb' 13 2).toNat with
    | 0 => if r.flagP then r.prg[2] else r.prg[0]
    | 1 => r.prg[1]
    | 2 => if r.flagP then r.prg[0] else r.prg[2]
    | _ => r.prg[3]
  (reg &&& bankMask p.prgSize 8192).toNat * 8192 + (a.extractLsb' 0 13).toNat

/-- The SIMPLE PRG offset of a CPU address from $8000 up (R235). -/
def simplePrgOffset (p : Params) (r : SimpleRegs) (a : BusAddr) : Nat :=
  let bank :=
    if a < 0xC000#16 then (r.prgBank &&& bankMask p.prgSize 16384).toNat else p.prgSize / 16384 - 1
  bank * 16384 + (a.extractLsb' 0 14).toNat

/-- The SIMPLE CHR offset of a PPU address below $2000 (R235). -/
def simpleChrOffset (p : Params) (r : SimpleRegs) (a : PpuAddr) : Nat :=
  (r.chrBank &&& bankMask p.chrSize 8192).toNat * 8192 + (a.extractLsb' 0 13).toNat

/-- The CHR offset of a PPU address below $2000 on the board. -/
def chrOffset (s : State) (a : PpuAddr) : Nat :=
  match s.params.board with
  | .mmc3 => mmc3ChrOffset s.params s.mmc3 a
  | .simple => simpleChrOffset s.params s.simple a

/-- The PRG offset of a CPU address from $8000 up on the board. -/
def prgOffset (s : State) (a : BusAddr) : Nat :=
  match s.params.board with
  | .mmc3 => mmc3PrgOffset s.params s.mmc3 a
  | .simple => simplePrgOffset s.params s.simple a

end Sys2Proof.Machine
end

