-- ==== Sys2Proof/Machine/Outputs.lean ====
section
/-!
DEFINITION. The two levels the block presents at every operation boundary (spec/42_board_dispatch.md R151), and the
nametable aliasing each mirroring mode stands for, which is the reader's table (spec/20_memory.md R65): the block itself
serves no nametable address.
-/

namespace Sys2Proof.Machine

/-- The interrupt level presented to the CPU core (R151, spec/60_exceptions.md R306). -/
def irqOutput (s : State) : Bool := s.irqBoard

/-- The mirroring mode presented to the video pipeline (R151). -/
def mirroringOutput (s : State) : Mirroring := s.mirroring

/-- The physical 1K page of nametable `n = addr[11:10]` in each mode (R65, general knowledge the spec marks as such). -/
def nametablePage (m : Mirroring) (n : BitVec 2) : Nat :=
  match m with
  | .horizontal => n.toNat / 2
  | .vertical => n.toNat % 2
  | .singleLow => 0
  | .singleHigh => 1
  | .full => n.toNat

end Sys2Proof.Machine
end

