-- ==== Sys2Proof/Safety.lean ====
section
/-!
DEFINITION. What claims are stated in: the parameters a construction accepts, the invariant of a board such a construction
built, and when two boards have the same persisted state.
-/

namespace Sys2Proof.Machine

/-- The size constraints of spec/00_scope.md R9. -/
structure SizesOk (p : Params) : Prop where
  prg : ∃ k, p.prgSize = prgUnit p.board * 2 ^ k
  chr : ∃ k, p.chrSize = 8192 * 2 ^ k

/-- A list of bytes of an image: in canonical form, and inside the image. -/
structure ImageOk (m : Memory) (size : Nat) : Prop where
  sorted : Memory.wf m
  inside : ∀ c ∈ m, c.1 < size

/-- The images of the parameters are listed in canonical form. -/
structure ListsOk (p : Params) : Prop where
  prg     : ImageOk p.prg p.prgSize
  chrRom  : ImageOk p.chrRom p.chrSize
  chrInit : ImageOk p.chrRamInit p.chrSize

/-- The invariant of a constructed board: its sizes meet R9; the window table is the one its registers give
(spec/10_state.md R30); the CHR RAM is listed in canonical form inside its image, and a ROM board lists none (R32); the
mirroring mode is the wired one where the board cannot change it (R28, spec/43_mmc3_registers.md R164); a SIMPLE board's
interrupt bit is clear (spec/44_irq_timer.md R209); the register set of the variant the board is not is blank (log entry
14); and no access was out of bounds (spec/41_bank_window.md R125). -/
structure Inv (s : State) : Prop where
  sizes       : SizesOk s.params
  lists       : ListsOk s.params
  windows     : s.windows = windowTable s.params s.mmc3 s.simple
  ram         : ImageOk s.chrRam s.params.chrSize
  romHasNoRam : s.params.chrIsRam = false → s.chrRam = []
  fixedMode   : s.params.board = .simple ∨ s.params.wired = .full → s.mirroring = s.params.wired
  quiet       : s.params.board = .simple → s.irqBoard = false
  noSimple    : s.params.board = .mmc3 → s.simple = { chrBank := 0, prgBank := 0 }
  noMmc3      : s.params.board = .simple → s.mmc3 = blankMmc3
  inBounds    : ∀ space w a, s.fault ≠ some (.outOfBounds space w a)

/-- What two boards of a round trip share of their parameters (spec/46_state_codec.md R262): the variant, the images and
their sizes, the timer revision and the slot map. The wired mirroring, the initial CHR RAM and the detector's filter may
differ. -/
structure SameCartridge (p q : Params) : Prop where
  board    : p.board = q.board
  prg      : p.prg = q.prg
  prgSize  : p.prgSize = q.prgSize
  chrSize  : p.chrSize = q.chrSize
  chrIsRam : p.chrIsRam = q.chrIsRam
  chrRom   : p.chrRom = q.chrRom
  altIrq   : p.altIrq = q.altIrq
  slotMap  : p.slotMap = q.slotMap

/-- Two boards of the same cartridge with the same register sets, window table and fault mark: what a `SAVE` and a `LOAD`
carry over, with what construction fixes (spec/46_state_codec.md R262). The wired mirroring, the mirroring, the interrupt bit
and the CHR RAM may differ (R260). -/
structure SamePersisted (s t : State) : Prop where
  params  : SameCartridge s.params t.params
  mmc3    : s.mmc3 = t.mmc3
  simple  : s.simple = t.simple
  windows : s.windows = t.windows
  fault   : s.fault = t.fault

end Sys2Proof.Machine
end

