-- ==== Sys2Proof/WellFormed.lean ====
section
/-!
DEFINITION. When an instruction is one a board constructed with given parameters can be handed: its address is one the
decode of spec/30_encoding.md (R91 to R102) gives that instruction.
-/

namespace Sys2Proof

/-- The address selects `slot` on this board (R91, R93, R142). -/
def selectsSlot (p : Params) (slot : Slot) (a : BusAddr) : Bool :=
  p.board == .mmc3 && a[15] && slotAt p.slotMap a == slot

/-- The address conditions of each row of the opcode table, on the board of `p`. -/
def wellFormed (p : Params) : Instr → Bool
  | .bankSelect a _ => selectsSlot p .bankSelect a
  | .bankData a _ => selectsSlot p .bankData a
  | .mirroring a _ => selectsSlot p .mirroring a
  | .prgMode a _ => selectsSlot p .prgMode a
  | .irqReload a _ => selectsSlot p .irqReload a
  | .irqClear a _ => selectsSlot p .irqClear a
  | .irqDisable a _ => selectsSlot p .irqDisable a
  | .irqEnable a _ => selectsSlot p .irqEnable a
  | .simpleWrite a _ => p.board == .simple && a[15]
  | .cwUndecoded a _ => !a[15] || selectsSlot p .none a
  | .crPrg a => a[15]
  | .crOpenBus a => !a[15]
  | .prChr a => decide (a < 0x2000#14)
  | .prNotServed a => !decide (a < 0x2000#14)
  | .pwChr a _ => decide (a < 0x2000#14)
  | .pwNotServed a _ => !decide (a < 0x2000#14)
  | .a12 => true
  | .reset => true
  | .save => true
  | .load _ => true
  | .ack => true

/-- The instruction is one the decode of this board can give. -/
abbrev WellFormed (p : Params) (i : Instr) : Prop := wellFormed p i = true

end Sys2Proof
end

