-- ==== Sys2Proof/Certificates/Slice0/Obligations.lean ====
section
/-!
DEFINITION. The statements for the provers. Where a docstring says "the spec's decision", the rule named carries the spec's
own mark [decision: ...]; where it says "log entry", the clause is the model's choice.
-/

open Sys2Proof Sys2Proof.Machine

/-! ### Step, decode and encode -/

/-- The next operation of the host's sequence is decoded and run on the board with that operation taken; with none left and
no fault, nothing happens (spec/00_scope.md section 2; log entries 1 and 2). -/
def Obligations.StepRunsDecodedOperation : Prop :=
  (∀ (s : State) (o : HostOp) (rest : List HostInput), s.pending = .op o :: rest →
      step s = exec (decode s.params o) { s with pending := rest }) ∧
    ∀ s : State, s.pending = [] → s.fault = none → step s = .next s

/-- A few transactions written out bit by bit from the encoding tables (spec/30_encoding.md sections 2 to 5; the default map
is the spec's decision D1): each MMC3 slot, the SIMPLE register, and each read and PPU form. -/
def Obligations.SpecWordsDecode : Prop :=
  ∀ d : Byte,
    decode defaultParams (.cw 0b1001111111111110#16 d) = .bankSelect 0x9FFE#16 d ∧
    decode defaultParams (.cw 0b1001111111111111#16 d) = .bankData 0x9FFF#16 d ∧
    decode defaultParams (.cw 0b1011111111111110#16 d) = .mirroring 0xBFFE#16 d ∧
    decode defaultParams (.cw 0b1010000000000001#16 d) = .prgMode 0xA001#16 d ∧
    decode defaultParams (.cw 0b1101111111111110#16 d) = .irqReload 0xDFFE#16 d ∧
    decode defaultParams (.cw 0b1100000000000001#16 d) = .irqClear 0xC001#16 d ∧
    decode defaultParams (.cw 0b1110000000000000#16 d) = .irqDisable 0xE000#16 d ∧
    decode defaultParams (.cw 0b1111111111111111#16 d) = .irqEnable 0xFFFF#16 d ∧
    decode { defaultParams with board := .simple } (.cw 0b1100000100100011#16 d) = .simpleWrite 0xC123#16 d ∧
    decode defaultParams (.cw 0b0111111111111111#16 d) = .cwUndecoded 0x7FFF#16 d ∧
    decode defaultParams (.cr 0b1111111111111100#16) = .crPrg 0xFFFC#16 ∧
    decode defaultParams (.cr 0b0110000000000000#16) = .crOpenBus 0x6000#16 ∧
    decode defaultParams (.pr 0b0101000000000000#16) = .prChr 0x1000#14 ∧
    decode defaultParams (.pr 0b0010000000000000#16) = .prNotServed 0x2000#14 ∧
    decode defaultParams (.pw 0b0001111111111111#16 d) = .pwChr 0x1FFF#14 d ∧
    decode defaultParams (.pw 0b0010010000000000#16 d) = .pwNotServed 0x2400#14 d

/-- Every instruction a board can be handed, with every operand its encoding admits, is the decode of its encoding
(spec/30_encoding.md sections 1 to 5). -/
def Obligations.DecodeEncodeRoundTrip : Prop :=
  ∀ (p : Params) (i : Instr), WellFormed p i → decode p (encode i) = i

/-- Every host operation decodes to an instruction that meets its row's address conditions and keeps the whole transaction:
encoding it again gives the operation, a PPU address reduced to 14 bits (spec/30_encoding.md section 5, the spec's decision
D22: every address and data value of every form has a defined effect). -/
def Obligations.EveryOperationDecodesWhole : Prop :=
  ∀ (p : Params) (o : HostOp),
    WellFormed p (decode p o) ∧
      encode (decode p o) =
        match o with
        | .pw a d => .pw (a &&& 0x3FFF#16) d
        | .pr a => .pr (a &&& 0x3FFF#16)
        | o => o

/-- An MMC3 write acts by `a & $E001` alone and a SIMPLE write by `a[15]` alone: addresses that agree there have the same
effect, on every board of any `SLOT_MAP` (spec/30_encoding.md section 2, the spec's decision D1, and section 4, D20). -/
def Obligations.OtherWriteAddressBitsAreIgnored : Prop :=
  ∀ (s : State) (a b : BusAddr) (d : Byte),
    (s.params.board = .mmc3 → a &&& 0xE001#16 = b &&& 0xE001#16 →
      exec (decode s.params (.cw a d)) s = exec (decode s.params (.cw b d)) s) ∧
    (s.params.board = .simple → a[15] = b[15] →
      exec (decode s.params (.cw a d)) s = exec (decode s.params (.cw b d)) s)

/-! ### The MMC3 register writes -/

/-- BANK_SELECT: `latch <- d[2:0]`, `flag_p <- d[6]`, `flag_c <- d[7]`, windows recomputed, and nothing else: mirroring too is
unchanged (spec/43_mmc3_registers.md BANK_SELECT, the spec's decisions D2 and D7). -/
def Obligations.BankSelectWritesLatchAndFlags : Prop :=
  ∀ (a : BusAddr) (d : Byte) (s : State), s.fault = none → s.params.board = .mmc3 →
    exec (.bankSelect a d) s = .next (State.recompute { s with
      mmc3 := { s.mmc3 with latch := zext32 (d &&& 7#8), flagP := d[6], flagC := d[7] } })

/-- BANK_DATA: the whole byte goes to `chr[latch]` for a latch of 0 to 5, to `prg[0]` for 6, to `prg[1]` for 7 and nowhere
for any other latch; the windows are recomputed in every case; nothing else changes (spec/43_mmc3_registers.md BANK_DATA, the
spec's decisions D3 and D19). -/
def Obligations.BankDataWritesTheSelectedRegister : Prop :=
  ∀ (a : BusAddr) (d : Byte) (s : State), s.fault = none → s.params.board = .mmc3 →
    (∀ k : Fin 6, s.mmc3.latch = BitVec.ofNat 32 k.val →
      exec (.bankData a d) s =
        .next (State.recompute { s with mmc3 := { s.mmc3 with chr := s.mmc3.chr.set k (zext32 d) } })) ∧
    (s.mmc3.latch = 6#32 →
      exec (.bankData a d) s =
        .next (State.recompute { s with mmc3 := { s.mmc3 with prg := s.mmc3.prg.set 0 (zext32 d) } })) ∧
    (s.mmc3.latch = 7#32 →
      exec (.bankData a d) s =
        .next (State.recompute { s with mmc3 := { s.mmc3 with prg := s.mmc3.prg.set 1 (zext32 d) } })) ∧
    (7 < s.mmc3.latch.toNat → exec (.bankData a d) s = .next (State.recompute s))

/-- MIRRORING: d[0] = 1 selects Horizontal and 0 Vertical, for every wiring but Full, which ignores the write; nothing else
changes (spec/43_mmc3_registers.md MIRRORING, the spec's decision D6). -/
def Obligations.MirroringWriteHonoursTheWiring : Prop :=
  ∀ (a : BusAddr) (d : Byte) (s : State), s.fault = none → s.params.board = .mmc3 →
    exec (.mirroring a d) s = .next { s with
      mirroring :=
        if s.params.wired = .full then s.mirroring
        else if d &&& 1#8 = 1#8 then .horizontal
        else .vertical }

/-- PRG_MODE, an undecoded CPU write and a PPU write from $2000 up have no effect; and the writes that decode so are those
below $8000 and, on MMC3, those at a key bound to NONE (spec/43_mmc3_registers.md PRG_MODE and NONE, spec/30_encoding.md
section 5; the spec's decisions D1, D8, D21 and D22; log entry 9). -/
def Obligations.WritesWithoutATargetHaveNoEffect : Prop :=
  ∀ (s : State) (a : BusAddr) (a' : PpuAddr) (d : Byte), s.fault = none →
    exec (.prgMode a d) s = .next s ∧
    exec (.cwUndecoded a d) s = .next s ∧
    exec (.pwNotServed a' d) s = .next s ∧
    (a < 0x8000#16 → exec (decode s.params (.cw a d)) s = .next s) ∧
    (s.params.board = .mmc3 → slotAt s.params.slotMap a = .none → exec (decode s.params (.cw a d)) s = .next s)

/-- IRQ_RELOAD: `irq_reload <- d`, `irq_counter <- 0` at once, and `irq_clear_pending <- 1` under `ALT_IRQ`; nothing else
changes, the interrupt bit, the enable flag and the prior counter among it; and the next edge reloads `d`, whatever the
counter held (spec/43_mmc3_registers.md R165). -/
def Obligations.IrqReloadZeroesTheCounter : Prop :=
  ∀ (a : BusAddr) (d : Byte) (s : State), s.fault = none → s.params.board = .mmc3 →
    let t := { s with
      mmc3 := { s.mmc3 with
        irqReload := d
        irqCounter := 0
        irqClearPending := if s.params.altIrq then true else s.mmc3.irqClearPending } }
    exec (.irqReload a d) s = .next t ∧ ∃ u, exec .a12 t = .next u ∧ u.mmc3.irqCounter = d

/-- IRQ_CLEAR: as IRQ_RELOAD, the reload value kept (spec/43_mmc3_registers.md IRQ_CLEAR, the spec's decision D9). -/
def Obligations.IrqClearZeroesTheCounter : Prop :=
  ∀ (a : BusAddr) (d : Byte) (s : State), s.fault = none → s.params.board = .mmc3 →
    exec (.irqClear a d) s = .next { s with
      mmc3 := { s.mmc3 with
        irqCounter := 0
        irqClearPending := if s.params.altIrq then true else s.mmc3.irqClearPending } }

/-- IRQ_DISABLE: clears the enabled flag and the interrupt bit, and nothing else (spec/43_mmc3_registers.md R167). -/
def Obligations.IrqDisableAcknowledges : Prop :=
  ∀ (a : BusAddr) (d : Byte) (s : State), s.fault = none → s.params.board = .mmc3 →
    exec (.irqDisable a d) s =
      .next { s with mmc3 := { s.mmc3 with irqEnabled := false }, irqBoard := false }

/-- IRQ_ENABLE: sets the enabled flag and nothing else: the interrupt bit neither clears nor sets
(spec/43_mmc3_registers.md R168). -/
def Obligations.IrqEnableOnlySetsTheFlag : Prop :=
  ∀ (a : BusAddr) (d : Byte) (s : State), s.fault = none → s.params.board = .mmc3 →
    exec (.irqEnable a d) s = .next { s with mmc3 := { s.mmc3 with irqEnabled := true } }

/-! ### The SIMPLE register write, and writes of the other variant -/

/-- SIMPLE_WRITE: `chr_bank <- d[1:0]`, `prg_bank <- d[5:2]`, windows recomputed, and nothing else
(spec/45_simple_switcher.md SimpleWrite, the spec's decisions D20 and D30). -/
def Obligations.SimpleWriteSetsBothBanks : Prop :=
  ∀ (a : BusAddr) (d : Byte) (s : State), s.fault = none → s.params.board = .simple →
    exec (.simpleWrite a d) s = .next (State.recompute { s with
      simple := { chrBank := BitVec.ofNat 32 (d.toNat % 4), prgBank := BitVec.ofNat 32 (d.toNat / 4 % 16) } })

/-- A register write of the variant the board is not is that board's no-op (spec/00_scope.md section 3, the spec's decision
D29; log entry 10). -/
def Obligations.OtherVariantsWritesAreNoOps : Prop :=
  ∀ (a : BusAddr) (d : Byte) (s : State), s.fault = none →
    (s.params.board = .simple →
      exec (.bankSelect a d) s = .next s ∧ exec (.bankData a d) s = .next s ∧
      exec (.mirroring a d) s = .next s ∧ exec (.irqReload a d) s = .next s ∧
      exec (.irqClear a d) s = .next s ∧ exec (.irqDisable a d) s = .next s ∧
      exec (.irqEnable a d) s = .next s) ∧
    (s.params.board = .mmc3 → exec (.simpleWrite a d) s = .next s)

/-! ### The read ports and the PPU write -/

/-- A CPU read from $8000 up returns the PRG byte at the closed-form offset of the registers, on either board, and changes
nothing else (spec/42_board_dispatch.md CPU read, the spec's decision D21; the closed forms of spec/43_mmc3_registers.md
section 4 and spec/45_simple_switcher.md). -/
def Obligations.CpuReadFollowsTheClosedForm : Prop :=
  ∀ (s : State) (a : BusAddr), Inv s → s.fault = none → a[15] = true →
    exec (.crPrg a) s = .next { s with readData := some (prgRom s.params (prgOffset s a)) }

/-- A CPU read below $8000 returns OPEN_BUS, whatever byte that is, and changes nothing else (spec/42_board_dispatch.md
section on CPU accesses below $8000, the spec's decision D21; log entry 6). -/
def Obligations.CpuReadBelow8000ReturnsOpenBus : Prop :=
  ∀ (s : State) (a : BusAddr), s.fault = none → a < 0x8000#16 →
    exec (decode s.params (.cr a)) s = .next { s with readData := some Config.openBus } ∧
      exec (.crOpenBus a) s = .next { s with readData := some Config.openBus }

/-- A PPU read below $2000 returns the CHR byte at the closed-form offset of the registers, on either board, and changes
nothing else (spec/42_board_dispatch.md PPU read, the spec's decisions D22 and D23). -/
def Obligations.PpuReadFollowsTheClosedForm : Prop :=
  ∀ (s : State) (a : PpuAddr), Inv s → s.fault = none → a < 0x2000#14 →
    exec (.prChr a) s = .next { s with readData := some (chrRead s (chrOffset s a)) }

/-- A PPU read from $2000 up returns nothing and changes nothing else (spec/42_board_dispatch.md PPU read, the spec's decision
D22; the readData field is log entry 12). -/
def Obligations.UnservedPpuReadReturnsNothing : Prop :=
  ∀ (s : State) (a : PpuAddr), s.fault = none → exec (.prNotServed a) s = .next { s with readData := none }

/-- A PPU write below $2000 stores its byte at the closed-form CHR offset when the image is RAM: that byte reads as written,
every other byte of the image as before, and nothing but CHR RAM changes; on a ROM image it has no effect
(spec/41_bank_window.md CHR writes, the spec's decision D12). -/
def Obligations.PpuWriteStoresOneChrRamByte : Prop :=
  ∀ (s : State) (a : PpuAddr) (d : Byte), Inv s → s.fault = none → a < 0x2000#14 →
    (s.params.chrIsRam = true →
      ∃ t, exec (.pwChr a d) s = .next t ∧ t = { s with chrRam := t.chrRam } ∧
        chrRead t (chrOffset s a) = d ∧ ∀ o, o ≠ chrOffset s a → chrRead t o = chrRead s o) ∧
    (s.params.chrIsRam = false → exec (.pwChr a d) s = .next s)

/-- An access whose translated offset reaches the image size raises OutOfBounds with its window and address, and does nothing
else (spec/41_bank_window.md translate, spec/60_exceptions.md section 1, the spec's decision D28). -/
def Obligations.AccessPastTheImageRaisesOutOfBounds : Prop :=
  ∀ (s : State) (w : Window), s.fault = none →
    (∀ a : BusAddr, lookup s.windows .prg a.toNat = some w →
      s.params.prgSize ≤ w.index * w.unit.bytes + (a.toNat - w.base) →
      exec (.crPrg a) s = .next { s with fault := some (.outOfBounds .prg (some w) a.toNat) }) ∧
    ∀ a : PpuAddr, lookup s.windows .chr a.toNat = some w →
      s.params.chrSize ≤ w.index * w.unit.bytes + (a.toNat - w.base) →
      exec (.prChr a) s = .next { s with fault := some (.outOfBounds .chr (some w) a.toNat) } ∧
        ∀ d : Byte, exec (.pwChr a d) s = .next { s with fault := some (.outOfBounds .chr (some w) a.toNat) }

/-! ### The scanline timer -/

/-- A12 on MMC3: the prior counter is remembered; the counter reloads when it is zero or a clear is pending and else counts
down; the interrupt bit is set when the revision's condition, a zero counter and the enable hold, and is otherwise kept; the
pending clear is consumed; nothing else changes (spec/44_irq_timer.md R201 to R204). -/
def Obligations.EdgeCountsAssertsAndConsumes : Prop :=
  ∀ s : State, s.fault = none → s.params.board = .mmc3 →
    let r := s.mmc3
    let counter : Byte := if r.irqCounter = 0 ∨ r.irqClearPending = true then r.irqReload else r.irqCounter - 1
    exec .a12 s = .next { s with
      mmc3 := { r with
        priorIrqCounter := zext32 r.irqCounter
        irqCounter := counter
        irqClearPending := false }
      irqBoard :=
        if (s.params.altIrq = false ∨ r.irqCounter ≠ 0 ∨ r.irqClearPending = true) ∧ counter = 0 ∧
            r.irqEnabled = true then true
        else s.irqBoard }

/-- SIMPLE has no interrupt: the edge has no effect, no operation sets the bit, and a hard reset leaves it 0
(spec/44_irq_timer.md R209, spec/45_simple_switcher.md R234). -/
def Obligations.SimpleBoardHasNoInterrupt : Prop :=
  ∀ s : State, s.params.board = .simple →
    (s.fault = none → exec .a12 s = .next s ∧ ∃ t, exec .reset s = .next t ∧ t.irqBoard = false) ∧
    ∀ (i : Instr) (t : State), exec i s = .next t → t.irqBoard = true → s.irqBoard = true

/-- The Idle, Armed and Fired states move as the transition table says (spec/44_irq_timer.md section 3, derived there). -/
def Obligations.TimerPhasesFollowTheTable : Prop :=
  ∀ (s t : State) (i : Instr), s.params.board = .mmc3 → exec i s = .next t →
    match i with
    | .irqEnable _ _ => timerPhase t = if timerPhase s = .fired then .fired else .armed
    | .irqDisable _ _ => timerPhase t = .idle
    | .irqReload _ _ => timerPhase t = timerPhase s
    | .irqClear _ _ => timerPhase t = timerPhase s
    | .ack => timerPhase t = if s.mmc3.irqEnabled then .armed else .idle
    | .reset => timerPhase t = .idle
    | .a12 =>
      timerPhase t =
        if timerPhase s = .armed ∧ t.mmc3.irqCounter = 0 ∧
            (s.params.altIrq = false ∨ s.mmc3.irqCounter ≠ 0 ∨ s.mmc3.irqClearPending = true) then .fired
        else timerPhase s
    | _ => True

/-- Only an edge of an enabled MMC3 timer whose counter ends at 0 sets the interrupt bit (spec/60_exceptions.md section 2 and
spec/42_board_dispatch.md section on outputs; derived from the edge rules). -/
def Obligations.InterruptIsSetOnlyByAnEdge : Prop :=
  ∀ (s t : State) (i : Instr), exec i s = .next t → s.irqBoard = false → t.irqBoard = true →
    i = .a12 ∧ s.params.board = .mmc3 ∧ s.mmc3.irqEnabled = true ∧ t.mmc3.irqCounter = 0

/-- The interrupt bit is a level: only IRQ_DISABLE, ACK and RESET clear it (spec/44_irq_timer.md section 3 and
spec/60_exceptions.md section 2; the spec's decision D26). -/
def Obligations.InterruptIsClearedOnlyByAcknowledge : Prop :=
  ∀ (s t : State) (i : Instr), exec i s = .next t → s.irqBoard = true → t.irqBoard = false →
    i = .ack ∨ i = .reset ∨ ∃ a d, i = .irqDisable a d

/-- ACK clears the interrupt bit and changes nothing else, whatever the board and its state (spec/42_board_dispatch.md
acknowledge, the spec's decision D31). -/
def Obligations.AckClearsTheInterruptBit : Prop :=
  ∀ s : State, s.fault = none → exec .ack s = .next { s with irqBoard := false }

/-- The optional detector: an address with bit 12 set, after a sample with bit 12 clear and at least A12_FILTER low samples,
delivers A12; its own state moves on in every case (spec/44_irq_timer.md section 2, the spec's decision D23; log entry
15). -/
def Obligations.DetectorDeliversFilteredEdges : Prop :=
  ∀ (s : State) (a : PpuAddr) (rest : List HostInput), s.fault = none → s.pending = .ppuAddress a :: rest →
    step s =
      if a[12] = true ∧ s.detector.a12Prev = false ∧ s.params.a12Filter ≤ s.detector.lowRun then
        exec .a12 { s with pending := rest, detector := { a12Prev := true, lowRun := 0 } }
      else
        .next { s with
          pending := rest
          detector := { a12Prev := a[12], lowRun := if a[12] = true then 0 else s.detector.lowRun + 1 } }

/-! ### Hard reset and construction -/

/-- RESET on MMC3: every register at its reset value, the wired mirroring, the interrupt bit clear, the windows of the reset
registers; nothing else changes, CHR RAM among it (spec/70_reset_and_hazards.md section 1; the values are the spec's
decisions D5, D13 and D14). The model's choices in it: the edge detector takes its reset values (log entry 15), the absent
variant's registers stay (log entry 14), and the last bank's number is taken as an int32 (log entry 17). -/
def Obligations.HardResetOfMmc3 : Prop :=
  ∀ s : State, s.fault = none → s.params.board = .mmc3 →
    let n8P := BitVec.ofNat 32 (s.params.prgSize / 8192)
    let r : Mmc3Regs :=
      { flagC := false, flagP := false, latch := 0, chr := Vector.replicate 6 0,
        prg := #v[0, 1, n8P - 2, n8P - 1], irqEnabled := false, irqCounter := 0, priorIrqCounter := 0,
        irqReload := 255, irqClearPending := false }
    exec .reset s = .next { s with
      mmc3 := r
      mirroring := s.params.wired
      irqBoard := false
      windows := windowTable s.params r s.simple
      detector := { a12Prev := false, lowRun := 0 } }

/-- RESET on SIMPLE: both bank registers 0, the wired mirroring, the interrupt bit clear, the windows of the reset registers;
nothing else changes (spec/70_reset_and_hazards.md section 1; the spec's decisions D14 and D20). The model's choices in it:
the edge detector takes its reset values (log entry 15), and the untouched MMC3 set stays (log entry 14). -/
def Obligations.HardResetOfSimple : Prop :=
  ∀ s : State, s.fault = none → s.params.board = .simple →
    exec .reset s = .next { s with
      simple := { chrBank := 0, prgBank := 0 }
      mirroring := s.params.wired
      irqBoard := false
      windows := windowTable s.params s.mmc3 { chrBank := 0, prgBank := 0 }
      detector := { a12Prev := false, lowRun := 0 } }

/-- A second hard reset changes nothing (spec/70_reset_and_hazards.md section 1, derived there). -/
def Obligations.HardResetIsIdempotent : Prop :=
  ∀ s t : State, exec .reset s = .next t → exec .reset t = .next t

/-- Construction refuses a PRG size that is not the variant's unit times a power of two, then a CHR size that is not 8 KiB
times a power of two, each with the size; else it gives a board with no fault, these parameters and CHR_RAM_INIT in its RAM,
on which a hard reset changes nothing (spec/42_board_dispatch.md construction, spec/60_exceptions.md section 1; the spec's
decisions D15 and D32). -/
def Obligations.ConstructionChecksSizesAndResets : Prop :=
  ∀ p : Params,
    let unit := match p.board with
      | .mmc3 => 8192
      | .simple => 16384
    ((¬ ∃ k, p.prgSize = unit * 2 ^ k) → construct p = .refused (.configPrgSize p.prgSize)) ∧
    ((∃ k, p.prgSize = unit * 2 ^ k) → (¬ ∃ k, p.chrSize = 8192 * 2 ^ k) →
      construct p = .refused (.configChrSize p.chrSize)) ∧
    ((∃ k, p.prgSize = unit * 2 ^ k) → (∃ k, p.chrSize = 8192 * 2 ^ k) →
      ∃ s, construct p = .next s ∧ s.params = p ∧ s.fault = none ∧
        (p.chrIsRam = true → s.chrRam = p.chrRamInit) ∧ exec .reset s = .next s)

/-! ### The state codec -/

/-- SAVE on MMC3 appends the 54 bytes of the layout, in its order, and changes nothing else (spec/46_state_codec.md section 2;
the byte order and flag bytes are the spec's decision D16; the stream field is log entry 13). -/
def Obligations.SaveAppendsTheMmc3Layout : Prop :=
  ∀ s : State, s.fault = none → s.params.board = .mmc3 →
    let le : Word → List Byte := fun w =>
      [BitVec.ofNat 8 w.toNat, BitVec.ofNat 8 (w.toNat / 256), BitVec.ofNat 8 (w.toNat / 65536),
        BitVec.ofNat 8 (w.toNat / 16777216)]
    let bl : Bool → Byte := fun b => if b then 1 else 0
    let r := s.mmc3
    exec .save s = .next { s with
      stream := s.stream ++ [bl r.flagC, bl r.flagP] ++ le r.latch
        ++ (le r.chr[0] ++ le r.chr[1] ++ le r.chr[2] ++ le r.chr[3] ++ le r.chr[4] ++ le r.chr[5])
        ++ (le r.prg[0] ++ le r.prg[1] ++ le r.prg[2] ++ le r.prg[3])
        ++ [bl r.irqEnabled, r.irqCounter] ++ le r.priorIrqCounter ++ [r.irqReload, bl r.irqClearPending] }

/-- SAVE on SIMPLE appends the 8 bytes of its two registers and changes nothing else (spec/46_state_codec.md section 2, the
spec's decisions D16 and D20). -/
def Obligations.SaveAppendsTheSimpleLayout : Prop :=
  ∀ s : State, s.fault = none → s.params.board = .simple →
    let le : Word → List Byte := fun w =>
      [BitVec.ofNat 8 w.toNat, BitVec.ofNat 8 (w.toNat / 256), BitVec.ofNat 8 (w.toNat / 65536),
        BitVec.ofNat 8 (w.toNat / 16777216)]
    exec .save s = .next { s with stream := s.stream ++ le s.simple.chrBank ++ le s.simple.prgBank }

/-- LOAD on MMC3 of a stream of at least 54 bytes: every register from its place in the layout, any nonzero flag byte as 1,
no range checked; windows recomputed, the bytes after the layout left unread; mirroring, the interrupt bit, CHR RAM and all
else unchanged (spec/46_state_codec.md section 3; the spec's decisions D16 to D18). -/
def Obligations.LoadReadsTheMmc3Layout : Prop :=
  ∀ (s : State) (b : List Byte), s.fault = none → s.params.board = .mmc3 → 54 ≤ b.length →
    let at' : Nat → Byte := fun o => b.getD o 0
    let i32 : Nat → Word := fun o =>
      BitVec.ofNat 32 ((at' o).toNat + 256 * (at' (o + 1)).toNat + 65536 * (at' (o + 2)).toNat
        + 16777216 * (at' (o + 3)).toNat)
    exec (.load b) s = .next (State.recompute { s with
      mmc3 :=
        { flagC := decide (at' 0 ≠ 0), flagP := decide (at' 1 ≠ 0), latch := i32 2,
          chr := #v[i32 6, i32 10, i32 14, i32 18, i32 22, i32 26],
          prg := #v[i32 30, i32 34, i32 38, i32 42],
          irqEnabled := decide (at' 46 ≠ 0), irqCounter := at' 47, priorIrqCounter := i32 48,
          irqReload := at' 52, irqClearPending := decide (at' 53 ≠ 0) }
      unread := b.drop 54 })

/-- LOAD on SIMPLE of a stream of at least 8 bytes (spec/46_state_codec.md section 3; the spec's decisions D16 to D18 and
D20). -/
def Obligations.LoadReadsTheSimpleLayout : Prop :=
  ∀ (s : State) (b : List Byte), s.fault = none → s.params.board = .simple → 8 ≤ b.length →
    let at' : Nat → Byte := fun o => b.getD o 0
    let i32 : Nat → Word := fun o =>
      BitVec.ofNat 32 ((at' o).toNat + 256 * (at' (o + 1)).toNat + 65536 * (at' (o + 2)).toNat
        + 16777216 * (at' (o + 3)).toNat)
    exec (.load b) s = .next (State.recompute { s with
      simple := { chrBank := i32 0, prgBank := i32 4 }
      unread := b.drop 8 })

/-- LOAD of a stream shorter than the board's layout raises CodecUnderrun with the bytes needed and available, and loads
nothing (spec/46_state_codec.md section 3, the spec's decision D18). -/
def Obligations.ShortLoadRaisesUnderrun : Prop :=
  ∀ (s : State) (b : List Byte), s.fault = none →
    (s.params.board = .mmc3 → b.length < 54 →
      exec (.load b) s = .next { s with fault := some (.codecUnderrun 54 b.length) }) ∧
    (s.params.board = .simple → b.length < 8 →
      exec (.load b) s = .next { s with fault := some (.codecUnderrun 8 b.length) })

/-- The round-trip law: what SAVE on one constructed board appends, loaded into another of the same variant and image sizes
after a hard reset, gives that board the first one's registers and windows, with its own wired mirroring, the interrupt bit
clear and its own CHR RAM; and the two have the same persisted state where they are of one cartridge, however each is wired
(spec/46_state_codec.md section 4, derived there). -/
def Obligations.SaveLoadReproducesTheBoard : Prop :=
  ∀ A B : State, Inv A → Inv B → A.fault = none → B.fault = none →
    A.params.board = B.params.board → A.params.prgSize = B.params.prgSize → A.params.chrSize = B.params.chrSize →
    ∃ A' B' B'' bytes,
      exec .save A = .next A' ∧ A'.stream = A.stream ++ bytes ∧
      exec .reset B = .next B' ∧ exec (.load bytes) B' = .next B'' ∧
      B''.mmc3 = A.mmc3 ∧ B''.simple = A.simple ∧ B''.windows = A.windows ∧ B''.fault = none ∧
      B''.params = B.params ∧ B''.mirroring = B.params.wired ∧ B''.irqBoard = false ∧ B''.chrRam = B.chrRam ∧
      B''.unread = [] ∧
      (SameCartridge A.params B.params → SamePersisted A B'')

/-- The rest of the round-trip law: boards with the same persisted state stay so under every operation and answer alike; a PRG
read, and a CHR read of ROM, returns the same byte on both; and if their interrupt bits agree before an operation they agree
after it, so every edge makes the same assertion decision; the two may be wired to different mirroring
(spec/46_state_codec.md section 4, derived there). -/
def Obligations.BoardsOfOnePersistedStateStayAlike : Prop :=
  ∀ (s t : State) (i : Instr), SamePersisted s t →
    match exec i s, exec i t with
    | .next s', .next t' =>
      SamePersisted s' t' ∧ (s.irqBoard = t.irqBoard → s'.irqBoard = t'.irqBoard) ∧
        (s'.fault = none → (∃ a, i = .crPrg a) ∨ ((∃ a, i = .prChr a) ∧ s.params.chrIsRam = false) →
          s'.readData = t'.readData)
    | .fault f, .fault g => f = g
    | _, _ => False

/-! ### Faults and completion -/

/-- While a fault is recorded no operation has a step, a hard reset included (spec/10_state.md section 7 and
spec/60_exceptions.md section 1; the spec's decisions D18 and D28; log entry 5). -/
def Obligations.FaultedBoardHasNoStep : Prop :=
  ∀ (s : State) (f : Fault), s.fault = some f →
    (∀ i : Instr, exec i s = .fault f) ∧ step s = .fault f

/-- Every operation completes on a board with no fault; and on a constructed board no form traps but a LOAD of a short stream
(spec/30_encoding.md section 5 and spec/41_bank_window.md masking property, both derived there). -/
def Obligations.EveryOperationCompletes : Prop :=
  ∀ (s : State) (i : Instr), s.fault = none →
    ∃ t, exec i s = .next t ∧
      (Inv s → WellFormed s.params i → (∀ b, i = .load b → layoutSize s.params.board ≤ b.length) → t.fault = none)

/-! ### Windows -/

/-- After a bank-select or bank-data write, a SIMPLE write, a hard reset or a state read, from any state, the window table is
the one the registers give, the CHR layout and then the PRG layout on MMC3; running Recompute again changes nothing
(spec/43_mmc3_registers.md R171, spec/41_bank_window.md R128; after a SIMPLE write, the Recompute of
spec/45_simple_switcher.md, the spec's decision D20). -/
def Obligations.WindowsFollowTheRegisters : Prop :=
  (∀ (s t : State) (i : Instr), exec i s = .next t → t.fault = none →
    ((s.params.board = .mmc3 ∧ ∃ a d, i = .bankSelect a d ∨ i = .bankData a d) ∨
      (s.params.board = .simple ∧ ∃ a d, i = .simpleWrite a d) ∨ i = .reset ∨ ∃ b, i = .load b) →
    t.windows = windowTable t.params t.mmc3 t.simple) ∧
  ∀ s : State,
    (s.params.board = .mmc3 →
      windowTable s.params s.mmc3 s.simple = mmc3ChrWindows s.params s.mmc3 ++ mmc3PrgWindows s.params s.mmc3) ∧
    s.recompute = { s with windows := windowTable s.params s.mmc3 s.simple } ∧
    s.recompute.recompute = s.recompute

/-- The windows tile both spaces: for every value of the registers, each address of $8000-$FFFF is in exactly one PRG window
and each of $0000-$1FFF in exactly one CHR window, and no other address is in any (spec/20_memory.md section 2, derived
there). -/
def Obligations.WindowsTileBothSpaces : Prop :=
  ∀ (p : Params) (r : Mmc3Regs) (q : SimpleRegs) (a : Nat),
    ((windowTable p r q).filter fun w => w.covers .prg a).length = (if 0x8000 ≤ a ∧ a < 0x10000 then 1 else 0) ∧
    ((windowTable p r q).filter fun w => w.covers .chr a).length = (if a < 0x2000 then 1 else 0)

/-- The masking property: on sizes a construction accepts, every window of every register value translates each address it
covers to an offset inside the image (spec/41_bank_window.md, derived there). -/
def Obligations.WindowsNeverLeaveTheImage : Prop :=
  ∀ (p : Params) (r : Mmc3Regs) (q : SimpleRegs) (w : Window) (a : Nat), SizesOk p → w ∈ windowTable p r q →
    w.covers w.space a = true →
    ∃ o, windowTranslate p w a = .ok o ∧ o < imageSize p w.space

/-- The two CHR layouts mirror each other: with `flag_c` set, `a` goes to the CHR offset that `a ^ $1000` goes to with it clear
(spec/43_mmc3_registers.md section 4, derived there). -/
def Obligations.ChrLayoutsMirrorEachOther : Prop :=
  ∀ (s : State) (a : PpuAddr), SizesOk s.params → s.params.board = .mmc3 → a < 0x2000#14 →
    ∃ o,
      windowOffset (State.recompute { s with mmc3 := { s.mmc3 with flagC := true } }) .chr a.toNat = .ok o ∧
      windowOffset (State.recompute { s with mmc3 := { s.mmc3 with flagC := false } }) .chr (a ^^^ 0x1000#14).toNat = .ok o

/-- A bank switch is seen by the very next read: after any BANK_SELECT or BANK_DATA on MMC3, whatever flags or register it
writes, and any SIMPLE write, from any state, a CPU read from $8000 up and a PPU read below $2000 return the bytes at the
closed-form offsets of the registers just written (spec/20_memory.md section 6 and spec/70_reset_and_hazards.md section 3;
the closed forms rest on the spec's decisions D4, D5, D11 and D20). -/
def Obligations.NewBankIsSeenByTheNextRead : Prop :=
  ∀ (s : State) (i : Instr), SizesOk s.params → s.fault = none →
    ((s.params.board = .mmc3 ∧ ∃ a d, i = .bankSelect a d ∨ i = .bankData a d) ∨
      (s.params.board = .simple ∧ ∃ a d, i = .simpleWrite a d)) →
    ∃ t, exec i s = .next t ∧
      (∀ b : BusAddr, b[15] = true →
        exec (.crPrg b) t = .next { t with readData := some (prgRom t.params (prgOffset t b)) }) ∧
      ∀ b : PpuAddr, b < 0x2000#14 →
        exec (.prChr b) t = .next { t with readData := some (chrRead t (chrOffset t b)) }

/-- The bank number written is the bank read next, modulo the number of banks: after BANK_DATA with latch 6 and `flag_p` clear,
at $8000-$9FFF; after a SIMPLE write, at CPU $8000-$BFFF for d[5:2] and at PPU $0000-$1FFF for d[1:0]
(spec/20_memory.md section 6 and spec/70_reset_and_hazards.md section 3; the spec's decisions D5, D11 and D20). -/
def Obligations.BankWrittenIsTheBankRead : Prop :=
  ∀ (s : State) (a : BusAddr) (d : Byte), SizesOk s.params → s.fault = none →
    (s.params.board = .mmc3 → s.mmc3.latch = 6#32 → s.mmc3.flagP = false →
      ∃ t, exec (.bankData a d) s = .next t ∧
        ∀ b : BusAddr, 0x8000 ≤ b.toNat → b.toNat < 0xA000 →
          exec (.crPrg b) t = .next { t with
            readData := some (prgRom s.params
              (d.toNat % (s.params.prgSize / 8192) * 8192 + (b.toNat - 0x8000))) }) ∧
    (s.params.board = .simple →
      ∃ t, exec (.simpleWrite a d) s = .next t ∧
        (∀ b : BusAddr, 0x8000 ≤ b.toNat → b.toNat < 0xC000 →
          exec (.crPrg b) t = .next { t with
            readData := some (prgRom s.params
              (d.toNat / 4 % 16 % (s.params.prgSize / 16384) * 16384 + (b.toNat - 0x8000))) }) ∧
        ∀ b : PpuAddr, b < 0x2000#14 →
          exec (.prChr b) t = .next { t with
            readData := some (chrRead s (d.toNat % 4 % (s.params.chrSize / 8192) * 8192 + b.toNat)) })

/-- MMC3: while `prg[3]` holds the last bank's number, $E000-$FFFF reads the last 8 KiB of the image, whatever the other
registers hold, on every image whose banks an int32 can number (spec/20_memory.md section 5, derived there). -/
def Obligations.Mmc3HighWindowReadsTheLastBank : Prop :=
  ∀ (s : State) (a : BusAddr), Inv s → s.fault = none → s.params.board = .mmc3 →
    s.params.prgSize ≤ 8192 * 2 ^ 32 → s.mmc3.prg[3] = BitVec.ofNat 32 (s.params.prgSize / 8192) - 1#32 →
    0xE000 ≤ a.toNat →
    exec (.crPrg a) s = .next { s with
      readData := some (prgRom s.params (s.params.prgSize - 8192 + (a.toNat - 0xE000))) }

/-- SIMPLE: $C000-$FFFF reads the last 16 KiB of the image, and still does after any operation, a write or a LOAD among
them (spec/45_simple_switcher.md R231). -/
def Obligations.SimpleHighSlotIsFixed : Prop :=
  ∀ (s : State) (a : BusAddr), Inv s → s.fault = none → s.params.board = .simple → 0xC000 ≤ a.toNat →
    let byte := prgRom s.params (s.params.prgSize - 16384 + (a.toNat - 0xC000))
    exec (.crPrg a) s = .next { s with readData := some byte } ∧
      ∀ (i : Instr) (t : State), exec i s = .next t → t.fault = none →
        exec (.crPrg a) t = .next { t with readData := some byte }

/-! ### Invariants and whole-machine rules -/

/-- The reset state meets the invariant (the parameters are log entry 4). -/
def Obligations.ResetStateMeetsTheInvariant : Prop :=
  Inv State.reset

/-- Every board a construction gives, from parameters whose images are listed in canonical form, meets the invariant
(spec/42_board_dispatch.md construction). -/
def Obligations.ConstructedBoardMeetsTheInvariant : Prop :=
  ∀ (p : Params) (s : State), ListsOk p → construct p = .next s → Inv s

/-- Every step keeps the invariant: the windows stay those of the registers and the accesses in bounds, the CHR RAM stays in
canonical form, the fixed mirroring stays, a SIMPLE board's interrupt bit stays clear (spec/10_state.md section 5,
spec/41_bank_window.md masking property, both derived there). -/
def Obligations.StepKeepsTheInvariant : Prop :=
  ∀ s t : State, Inv s → step s = .next t → Inv t

/-- No step changes a construction parameter (spec/00_scope.md R8). -/
def Obligations.ParametersAreConstant : Prop :=
  (∀ s t : State, step s = .next t → t.params = s.params) ∧
    ∀ (p : Params) (s : State), construct p = .next s → s.params = p

/-- `prg[2]` and `prg[3]` are never reprogrammed by a bus operation: only RESET and LOAD write them (spec/10_state.md
section 2, the spec's decision D5). -/
def Obligations.FixedPrgRegistersAreNotReprogrammed : Prop :=
  ∀ (s t : State) (i : Instr), exec i s = .next t → i ≠ .reset → (∀ b, i ≠ .load b) →
    t.mmc3.prg[2] = s.mmc3.prg[2] ∧ t.mmc3.prg[3] = s.mmc3.prg[3]

/-- The hidden timer registers: `prior_irq_counter` is written only by an edge, RESET and LOAD, `irq_clear_pending` only by
IRQ_RELOAD and IRQ_CLEAR under `ALT_IRQ`, an edge, RESET and LOAD (spec/10_state.md section 8, derived there). -/
def Obligations.HiddenTimerRegistersHaveFewWriters : Prop :=
  ∀ (s t : State) (i : Instr), exec i s = .next t → i ≠ .reset → (∀ b, i ≠ .load b) → i ≠ .a12 →
    t.mmc3.priorIrqCounter = s.mmc3.priorIrqCounter ∧
      (t.mmc3.irqClearPending ≠ s.mmc3.irqClearPending →
        s.params.altIrq = true ∧ ∃ a d, i = .irqReload a d ∨ i = .irqClear a d)

/-- Mirroring changes only by a MIRRORING write on an MMC3 board not wired Full, or by RESET, which sets the wired mode
(spec/42_board_dispatch.md section on outputs, spec/10_state.md section 3; the spec's decisions D6 and D26). -/
def Obligations.MirroringHasTwoWriters : Prop :=
  ∀ (s t : State) (i : Instr), exec i s = .next t → t.mirroring ≠ s.mirroring →
    (i = .reset ∧ t.mirroring = s.params.wired) ∨
      (s.params.board = .mmc3 ∧ s.params.wired ≠ .full ∧ ∃ a d, i = .mirroring a d)

/-- SIMPLE has no mirroring control: on a constructed SIMPLE board the mode equals the wired one, and no write changes it
(spec/45_simple_switcher.md R233). -/
def Obligations.SimpleMirroringIsWired : Prop :=
  ∀ s : State, Inv s → s.params.board = .simple →
    s.mirroring = s.params.wired ∧ ∀ (i : Instr) (t : State), exec i s = .next t → t.mirroring = s.params.wired

/-- No operation changes a byte of PRG or of a CHR ROM, and only a PPU write below $2000 changes a byte of CHR RAM
(spec/20_memory.md section 4, the spec's decisions D12 and D23). -/
def Obligations.OnlyPpuWritesChangeMemory : Prop :=
  ∀ (s t : State) (i : Instr), exec i s = .next t →
    (∀ o, prgRom t.params o = prgRom s.params o) ∧
    ((s.params.chrIsRam = false ∨ ∀ a d, i ≠ .pwChr a d) → ∀ o, chrRead t o = chrRead s o)

/-- A CPU or PPU read leaves the state as it was, but for what it returns and the fault mark of an access out of bounds; and
repeating it changes nothing (spec/20_memory.md section 4; the spec's decision D23, and idempotency derived there). -/
def Obligations.ReadsHaveNoSideEffects : Prop :=
  ∀ (s t : State) (i : Instr),
    ((∃ a, i = .crPrg a) ∨ (∃ a, i = .crOpenBus a) ∨ (∃ a, i = .prChr a) ∨ ∃ a, i = .prNotServed a) →
    exec i s = .next t →
    t = { s with readData := t.readData, fault := t.fault } ∧ (t.fault = none → exec i t = .next t)

/-- The same CPU or PPU write twice in a row leaves the state the first one left (spec/20_memory.md section 4, derived
there). -/
def Obligations.WritesAreIdempotent : Prop :=
  ∀ (s t : State) (o : HostOp),
    ((∃ a d, o = .cw a d) ∨ ∃ a d, o = .pw a d) →
    exec (decode s.params o) s = .next t → t.fault = none →
    exec (decode t.params o) t = .next t
end

