-- ==== Sys2Proof/Laws/State.lean ====
section
/-!
SUPPORT. One lemma per field per named update of the state.
-/

namespace Sys2Proof.Machine.State

variable (s : State)

/-! ### `raise` -/

@[simp] theorem raise_params (f : Fault) : (s.raise f).params = s.params := rfl
@[simp] theorem raise_mmc3 (f : Fault) : (s.raise f).mmc3 = s.mmc3 := rfl
@[simp] theorem raise_simple (f : Fault) : (s.raise f).simple = s.simple := rfl
@[simp] theorem raise_mirroring (f : Fault) : (s.raise f).mirroring = s.mirroring := rfl
@[simp] theorem raise_irqBoard (f : Fault) : (s.raise f).irqBoard = s.irqBoard := rfl
@[simp] theorem raise_windows (f : Fault) : (s.raise f).windows = s.windows := rfl
@[simp] theorem raise_chrRam (f : Fault) : (s.raise f).chrRam = s.chrRam := rfl
@[simp] theorem raise_fault (f : Fault) : (s.raise f).fault = some f := rfl
@[simp] theorem raise_detector (f : Fault) : (s.raise f).detector = s.detector := rfl
@[simp] theorem raise_pending (f : Fault) : (s.raise f).pending = s.pending := rfl
@[simp] theorem raise_readData (f : Fault) : (s.raise f).readData = s.readData := rfl
@[simp] theorem raise_stream (f : Fault) : (s.raise f).stream = s.stream := rfl
@[simp] theorem raise_unread (f : Fault) : (s.raise f).unread = s.unread := rfl

/-! ### `recompute` -/

@[simp] theorem recompute_params : (s.recompute).params = s.params := rfl
@[simp] theorem recompute_mmc3 : (s.recompute).mmc3 = s.mmc3 := rfl
@[simp] theorem recompute_simple : (s.recompute).simple = s.simple := rfl
@[simp] theorem recompute_mirroring : (s.recompute).mirroring = s.mirroring := rfl
@[simp] theorem recompute_irqBoard : (s.recompute).irqBoard = s.irqBoard := rfl
@[simp] theorem recompute_windows : (s.recompute).windows = windowTable s.params s.mmc3 s.simple := rfl
@[simp] theorem recompute_chrRam : (s.recompute).chrRam = s.chrRam := rfl
@[simp] theorem recompute_fault : (s.recompute).fault = s.fault := rfl
@[simp] theorem recompute_detector : (s.recompute).detector = s.detector := rfl
@[simp] theorem recompute_pending : (s.recompute).pending = s.pending := rfl
@[simp] theorem recompute_readData : (s.recompute).readData = s.readData := rfl
@[simp] theorem recompute_stream : (s.recompute).stream = s.stream := rfl
@[simp] theorem recompute_unread : (s.recompute).unread = s.unread := rfl

/-! ### `putReadData` -/

@[simp] theorem putReadData_params (d : Option Byte) : (s.putReadData d).params = s.params := rfl
@[simp] theorem putReadData_mmc3 (d : Option Byte) : (s.putReadData d).mmc3 = s.mmc3 := rfl
@[simp] theorem putReadData_simple (d : Option Byte) : (s.putReadData d).simple = s.simple := rfl
@[simp] theorem putReadData_mirroring (d : Option Byte) : (s.putReadData d).mirroring = s.mirroring := rfl
@[simp] theorem putReadData_irqBoard (d : Option Byte) : (s.putReadData d).irqBoard = s.irqBoard := rfl
@[simp] theorem putReadData_windows (d : Option Byte) : (s.putReadData d).windows = s.windows := rfl
@[simp] theorem putReadData_chrRam (d : Option Byte) : (s.putReadData d).chrRam = s.chrRam := rfl
@[simp] theorem putReadData_fault (d : Option Byte) : (s.putReadData d).fault = s.fault := rfl
@[simp] theorem putReadData_detector (d : Option Byte) : (s.putReadData d).detector = s.detector := rfl
@[simp] theorem putReadData_pending (d : Option Byte) : (s.putReadData d).pending = s.pending := rfl
@[simp] theorem putReadData_readData (d : Option Byte) : (s.putReadData d).readData = d := rfl
@[simp] theorem putReadData_stream (d : Option Byte) : (s.putReadData d).stream = s.stream := rfl
@[simp] theorem putReadData_unread (d : Option Byte) : (s.putReadData d).unread = s.unread := rfl

/-! ### `putPending` -/

@[simp] theorem putPending_params (l : List HostInput) : (s.putPending l).params = s.params := rfl
@[simp] theorem putPending_mmc3 (l : List HostInput) : (s.putPending l).mmc3 = s.mmc3 := rfl
@[simp] theorem putPending_simple (l : List HostInput) : (s.putPending l).simple = s.simple := rfl
@[simp] theorem putPending_mirroring (l : List HostInput) : (s.putPending l).mirroring = s.mirroring := rfl
@[simp] theorem putPending_irqBoard (l : List HostInput) : (s.putPending l).irqBoard = s.irqBoard := rfl
@[simp] theorem putPending_windows (l : List HostInput) : (s.putPending l).windows = s.windows := rfl
@[simp] theorem putPending_chrRam (l : List HostInput) : (s.putPending l).chrRam = s.chrRam := rfl
@[simp] theorem putPending_fault (l : List HostInput) : (s.putPending l).fault = s.fault := rfl
@[simp] theorem putPending_detector (l : List HostInput) : (s.putPending l).detector = s.detector := rfl
@[simp] theorem putPending_pending (l : List HostInput) : (s.putPending l).pending = l := rfl
@[simp] theorem putPending_readData (l : List HostInput) : (s.putPending l).readData = s.readData := rfl
@[simp] theorem putPending_stream (l : List HostInput) : (s.putPending l).stream = s.stream := rfl
@[simp] theorem putPending_unread (l : List HostInput) : (s.putPending l).unread = s.unread := rfl

end Sys2Proof.Machine.State
end

