-- ==== Sys2Proof/Laws/Ops.lean ====
section
/-!
SUPPORT. What each shared operation can do, once: the fault guard, bytes by offset, the bank-window primitive, the hard
reset and the codec's field encodings.
-/

namespace Sys2Proof.Machine

/-! ### The fault guard -/

theorem running_of_none {s : State} (h : s.fault = none) (k : State → Outcome) : running s k = k s := by
  simp [running, h]

theorem running_of_some {s : State} {f : Fault} (h : s.fault = some f) (k : State → Outcome) :
    running s k = .fault f := by
  simp [running, h]

/-- A guarded operation that answers a next state ran on a board with no fault mark. -/
theorem running_eq_next {s t : State} {k : State → Outcome} :
    running s k = .next t ↔ s.fault = none ∧ k s = .next t := by
  cases h : s.fault <;> simp [running, h]

theorem onBoard_eq_next {b : Board} {s t : State} {f : State → State} :
    onBoard b s f = .next t ↔ s.fault = none ∧ t = if s.params.board = b then f s else s := by
  simp only [onBoard, running_eq_next, Host.Outcome.next.injEq]
  exact and_congr_right fun _ => eq_comm

theorem onBoard_of_board {b : Board} {s : State} (hf : s.fault = none) (hb : s.params.board = b) (f : State → State) :
    onBoard b s f = .next (f s) := by
  simp [onBoard, running_of_none hf, hb]

theorem onBoard_of_other {b : Board} {s : State} (hf : s.fault = none) (hb : s.params.board ≠ b) (f : State → State) :
    onBoard b s f = .next s := by
  simp [onBoard, running_of_none hf, hb]

theorem onBoard_of_some {b : Board} {s : State} {f : Fault} (h : s.fault = some f) (g : State → State) :
    onBoard b s g = .fault f :=
  running_of_some h _

/-! ### Bytes by offset -/

theorem Memory.read_write_self (m : Memory) (o : Nat) (v : Byte) : Memory.read (Memory.write m o v) o = some v := by
  induction m with
  | nil => simp [Memory.write, Memory.read]
  | cons c m ih =>
    obtain ⟨k, u⟩ := c
    by_cases h : o < k
    · simp [Memory.write, Memory.read, h]
    · by_cases e : o = k
      · simp [Memory.write, Memory.read, e]
      · simp [Memory.write, Memory.read, h, e, Ne.symm e, ih]

theorem Memory.read_write_other (m : Memory) {o o' : Nat} (v : Byte) (ne : o' ≠ o) :
    Memory.read (Memory.write m o v) o' = Memory.read m o' := by
  induction m with
  | nil => simp [Memory.write, Memory.read, ne.symm]
  | cons c m ih =>
    obtain ⟨k, u⟩ := c
    by_cases h : o < k
    · simp [Memory.write, Memory.read, h, ne.symm]
    · by_cases e : o = k
      · subst e
        simp [Memory.write, Memory.read, ne.symm]
      · simp [Memory.write, Memory.read, h, e, ih]

/-- Every entry of a written list is the written one or an old one. -/
theorem Memory.mem_write {m : Memory} {o : Nat} {v : Byte} {c : Host.Cell} (h : c ∈ Memory.write m o v) :
    c = (o, v) ∨ c ∈ m := by
  induction m with
  | nil => simpa [Memory.write] using h
  | cons d m ih =>
    obtain ⟨k, u⟩ := d
    simp only [Memory.write] at h
    split at h
    · simpa using h
    · split at h
      · rcases List.mem_cons.1 h with h | h
        · exact .inl h
        · exact .inr (List.mem_cons_of_mem _ h)
      · rcases List.mem_cons.1 h with h | h
        · exact .inr (h ▸ List.mem_cons_self)
        · exact (ih h).imp_right (List.mem_cons_of_mem _)

theorem Memory.write_wf {m : Memory} (h : Memory.wf m) (o : Nat) (v : Byte) : Memory.wf (Memory.write m o v) := by
  induction m with
  | nil => simp [Memory.write, Memory.wf]
  | cons c m ih =>
    obtain ⟨k, u⟩ := c
    obtain ⟨hk, hm⟩ := List.pairwise_cons.1 h
    simp only [Memory.write]
    split
    · next hlt =>
      refine List.pairwise_cons.2 ⟨fun d hd => ?_, h⟩
      rcases List.mem_cons.1 hd with rfl | hd
      · exact hlt
      · exact hlt.trans (hk d hd)
    · split
      · next e => exact List.pairwise_cons.2 ⟨fun d hd => e ▸ hk d hd, hm⟩
      · refine List.pairwise_cons.2 ⟨fun d hd => ?_, ih hm⟩
        rcases Memory.mem_write hd with rfl | hd
        · show k < o
          omega
        · exact hk d hd

theorem Memory.write_imageOk {m : Memory} {size o : Nat} (h : ImageOk m size) (ho : o < size) (v : Byte) :
    ImageOk (Memory.write m o v) size where
  sorted := Memory.write_wf h.sorted o v
  inside c hc := by
    rcases Memory.mem_write hc with rfl | hc
    · exact ho
    · exact h.inside c hc

/-! ### The bank-window primitive -/

/-- A masked index is a bank of the image, whatever the register holds. -/
theorem bankIndex_lt {count : Nat} (h : 0 < count) (b : Word) : bankIndex count b < count := by
  have le : bankIndex count b ≤ (BitVec.ofNat 32 (count - 1)).toNat := by
    rw [bankIndex, BitVec.toNat_and]
    exact Nat.and_le_right
  have := Nat.mod_le (count - 1) (2 ^ 32)
  rw [BitVec.toNat_ofNat] at le
  omega

/-- What `translate` answers: the offset if it is inside the image, else the fault with its window and address. -/
theorem windowTranslate_eq (p : Params) (w : Window) (a : Nat) :
    windowTranslate p w a =
      if w.index * w.unit.bytes + (a - w.base) < imageSize p w.space then
        .ok (w.index * w.unit.bytes + (a - w.base))
      else .error (.outOfBounds w.space (some w) a) := by
  by_cases h : w.index * w.unit.bytes + (a - w.base) < imageSize p w.space
  · simp [windowTranslate, h, Nat.not_le.2 h]
  · simp [windowTranslate, h, Nat.not_lt.1 h]

theorem covers_iff (w : Window) (space : Space) (a : Nat) :
    w.covers space a = true ↔ w.space = space ∧ w.base ≤ a ∧ a < w.base + w.unit.bytes := by
  simp [Window.covers, and_assoc]

/-- The range of an assigned window is that of its base and unit, whatever bank it maps. -/
theorem assign_covers_iff (p : Params) (space space' : Space) (base a : Nat) (unit : BankUnit) (b : Word) :
    (assign p space base unit b).covers space' a = true ↔ space = space' ∧ base ≤ a ∧ a < base + unit.bytes :=
  covers_iff ..

theorem lookup_covers {ws : List Window} {space : Space} {a : Nat} {w : Window} (h : lookup ws space a = some w) :
    w ∈ ws ∧ w.covers space a = true :=
  ⟨List.mem_of_find?_eq_some h, List.find?_some (p := fun w : Window => w.covers space a) h⟩

/-- The offset an assigned window gives an address of its range. -/
theorem assign_offset (p : Params) (space : Space) (base : Nat) (unit : BankUnit) (b : Word) (a : Nat) :
    (assign p space base unit b).index * (assign p space base unit b).unit.bytes +
        (a - (assign p space base unit b).base) =
      bankIndex (imageSize p space / unit.bytes) b * unit.bytes + (a - base) := rfl

theorem lookup_cons_of_covers {ws : List Window} {w : Window} {space : Space} {a : Nat}
    (h : w.covers space a = true) : lookup (w :: ws) space a = some w := by
  simp [lookup, h]

theorem lookup_cons_of_not_covers {ws : List Window} {w : Window} {space : Space} {a : Nat}
    (h : ¬w.covers space a = true) : lookup (w :: ws) space a = lookup ws space a := by
  simp [lookup, h]

/-- A bus address has bit 15 set from $8000 up (spec/30_encoding.md R101). -/
theorem bit15_iff (a : BusAddr) : a[15] = true ↔ 0x8000 ≤ a.toNat := by
  rw [← BitVec.getLsbD_eq_getElem, BitVec.getLsbD, Nat.testBit_eq_decide_div_mod_eq, decide_eq_true_eq]
  have := a.isLt
  omega

/-- A window access goes to an offset inside the image, or raises an out-of-bounds fault. -/
theorem windowOffset_cases (s : State) (space : Space) (a : Nat) :
    (∃ o, windowOffset s space a = .ok o ∧ o < imageSize s.params space) ∨
      ∃ w, windowOffset s space a = .error (.outOfBounds space w a) := by
  unfold windowOffset
  split
  · next w h =>
    obtain ⟨rfl, -⟩ := (covers_iff ..).1 (lookup_covers h).2
    rw [windowTranslate_eq]
    split
    · exact .inl ⟨_, rfl, ‹_›⟩
    · exact .inr ⟨_, rfl⟩
  · exact .inr ⟨_, rfl⟩

/-- What a PRG read leaves: the byte for the host, or the fault mark. -/
theorem finishRead_prg_cases (s : State) (a : Nat) :
    (∃ v, finishRead s (windowReadPrg s a) = s.putReadData (some v)) ∨
      ∃ w, finishRead s (windowReadPrg s a) = s.raise (.outOfBounds .prg w a) := by
  rcases windowOffset_cases s .prg a with ⟨o, h, -⟩ | ⟨w, h⟩
  · exact .inl ⟨prgRom s.params o, by simp [windowReadPrg, h, finishRead]⟩
  · exact .inr ⟨w, by simp [windowReadPrg, h, finishRead]⟩

/-- What a CHR read leaves: the byte for the host, or the fault mark. -/
theorem finishRead_chr_cases (s : State) (a : Nat) :
    (∃ v, finishRead s (windowReadChr s a) = s.putReadData (some v)) ∨
      ∃ w, finishRead s (windowReadChr s a) = s.raise (.outOfBounds .chr w a) := by
  rcases windowOffset_cases s .chr a with ⟨o, h, -⟩ | ⟨w, h⟩
  · exact .inl ⟨chrRead s o, by simp [windowReadChr, h, finishRead]⟩
  · exact .inr ⟨w, by simp [windowReadChr, h, finishRead]⟩

/-- What a CHR write leaves: a byte of CHR RAM inside the image, the state as it was on a ROM board, or the fault mark. -/
theorem windowWriteChr_cases (s : State) (a : Nat) (v : Byte) :
    (∃ o, o < s.params.chrSize ∧ s.params.chrIsRam = true ∧
        windowWriteChr s a v = { s with chrRam := Memory.write s.chrRam o v }) ∨
      (s.params.chrIsRam = false ∧ windowWriteChr s a v = s) ∨
      ∃ w, windowWriteChr s a v = s.raise (.outOfBounds .chr w a) := by
  rcases windowOffset_cases s .chr a with ⟨o, h, lt⟩ | ⟨w, h⟩
  · cases hr : s.params.chrIsRam
    · exact .inr (.inl ⟨rfl, by simp [windowWriteChr, h, hr]⟩)
    · exact .inl ⟨o, lt, rfl, by simp [windowWriteChr, h, hr]⟩
  · exact .inr (.inr ⟨w, by simp [windowWriteChr, h]⟩)

/-! ### Hard reset and construction -/

/-- A hard reset changes the register sets, the mirroring mode, the window table, the interrupt bit and the detector, and
nothing else. -/
theorem hardReset_frame (s : State) :
    hardReset s = { s with
      mmc3 := (hardReset s).mmc3
      simple := (hardReset s).simple
      mirroring := s.params.wired
      windows := windowTable s.params (hardReset s).mmc3 (hardReset s).simple
      irqBoard := false
      detector := resetDetector } := by
  cases h : s.params.board <;> simp [hardReset, h]

theorem hardReset_mmc3 {s : State} (h : s.params.board = .mmc3) :
    (hardReset s).mmc3 = resetMmc3 s.params ∧ (hardReset s).simple = s.simple := by
  simp [hardReset, h]

theorem hardReset_simple {s : State} (h : s.params.board = .simple) :
    (hardReset s).mmc3 = s.mmc3 ∧ (hardReset s).simple = resetSimple := by
  simp [hardReset, h]

/-- The size test is the constraint of spec/00_scope.md R9. -/
theorem unitTimesPowerOfTwo_iff {unit : Nat} (hu : 0 < unit) (size : Nat) :
    unitTimesPowerOfTwo unit size = true ↔ ∃ k, size = unit * 2 ^ k := by
  simp only [unitTimesPowerOfTwo, beq_iff_eq]
  constructor
  · exact fun h => ⟨_, h⟩
  · rintro ⟨k, rfl⟩
    rw [Nat.mul_div_cancel_left _ hu, Nat.log2_two_pow]

/-- `State.reset` is the board the construction makes of `defaultParams`. -/
theorem construct_defaultParams : construct defaultParams = .next State.reset := by
  have hp : unitTimesPowerOfTwo (prgUnit defaultParams.board) defaultParams.prgSize = true := by decide
  have hc : unitTimesPowerOfTwo 8192 defaultParams.chrSize = true := by decide
  have hr : hardReset (unreset defaultParams) = State.reset := by decide +kernel
  simp [construct, hp, hc, hr]

/-! ### Boards of one cartridge -/

/-- The window table of given registers depends on the variant and the image sizes alone. -/
theorem windowTable_congr {p q : Params} (hb : p.board = q.board) (hp : p.prgSize = q.prgSize)
    (hc : p.chrSize = q.chrSize) (r : Mmc3Regs) (x : SimpleRegs) : windowTable p r x = windowTable q r x := by
  have ha : ∀ space base unit b, assign p space base unit b = assign q space base unit b := by
    intro space base unit b
    cases space <;> simp [assign, imageSize, hp, hc]
  simp only [windowTable, mmc3ChrWindows, mmc3PrgWindows, simpleWindows, ha, m16P, hp, hb]

/-- Two boards of one cartridge whose window tables agree go to the same offset, or raise the same fault. -/
theorem windowOffset_congr {s t : State} (h : SameCartridge s.params t.params) (hw : s.windows = t.windows)
    (space : Space) (a : Nat) : windowOffset s space a = windowOffset t space a := by
  have hi : ∀ space, imageSize s.params space = imageSize t.params space := by
    rintro (_ | _)
    · exact h.prgSize
    · exact h.chrSize
  simp only [windowOffset, windowTranslate, hw, hi]

/-- Two boards of one cartridge read the same PRG bytes. -/
theorem prgRom_congr {p q : Params} (h : SameCartridge p q) (o : Nat) : prgRom p o = prgRom q o := by
  simp only [prgRom, h.prg]

/-- Two boards of one ROM cartridge read the same CHR bytes. -/
theorem chrRead_congr {s t : State} (h : SameCartridge s.params t.params) (hr : s.params.chrIsRam = false) (o : Nat) :
    chrRead s o = chrRead t o := by
  have ht : t.params.chrIsRam = false := h.chrIsRam ▸ hr
  simp [chrRead, hr, ht, h.chrRom]

/-! ### The codec's fields -/

theorem boolAt_zero (b : Bool) (rest : List Byte) : boolAt (boolBytes b ++ rest) 0 = b := by
  cases b <;> rfl

/-- Little-endian bytes put together again. -/
theorem int32At_int32Bytes (w : Word) (rest : List Byte) : int32At (int32Bytes w ++ rest) 0 = w := by
  show w.extractLsb' 24 8 ++ w.extractLsb' 16 8 ++ w.extractLsb' 8 8 ++ w.extractLsb' 0 8 = w
  ext i h
  simp only [BitVec.getElem_append, BitVec.getElem_extractLsb']
  split
  · simp [BitVec.getLsbD_eq_getElem h]
  · split
    · simp [show 8 + (i - 8) = i by omega, BitVec.getLsbD_eq_getElem h]
    · split
      · simp [show 16 + (i - 8 - 8) = i by omega, BitVec.getLsbD_eq_getElem h]
      · simp [show 24 + (i - 8 - 8 - 8) = i by omega, BitVec.getLsbD_eq_getElem h]

theorem boolBytes_length (b : Bool) : (boolBytes b).length = 1 := rfl

theorem int32Bytes_length (w : Word) : (int32Bytes w).length = 4 := rfl

theorem saveMmc3_length (r : Mmc3Regs) : (saveMmc3 r).length = 54 := by
  rfl

theorem saveSimple_length (r : SimpleRegs) : (saveSimple r).length = 8 := rfl

theorem boolAt_of (b : Bool) : ((if b then 1 else 0 : Byte) != 0) = b := by
  cases b <;> rfl

/-- The registers a board saves are the registers it reads back. -/
theorem loadMmc3_saveMmc3 (r : Mmc3Regs) : loadMmc3 (saveMmc3 r) = r := by
  obtain ⟨flagC, flagP, latch, chr, prg, irqEnabled, irqCounter, priorIrqCounter, irqReload, irqClearPending⟩ := r
  have w : ∀ w : Word, w.extractLsb' 24 8 ++ w.extractLsb' 16 8 ++ w.extractLsb' 8 8 ++ w.extractLsb' 0 8 = w :=
    fun w => int32At_int32Bytes w []
  refine (Mmc3Regs.mk.injEq ..).mpr ⟨boolAt_of _, boolAt_of _, w latch, ?_, ?_, boolAt_of _, rfl, w _, rfl, boolAt_of _⟩
  · refine Vector.ext fun i hi => ?_
    match i, hi with
    | 0, _ => exact w chr[0]
    | 1, _ => exact w chr[1]
    | 2, _ => exact w chr[2]
    | 3, _ => exact w chr[3]
    | 4, _ => exact w chr[4]
    | 5, _ => exact w chr[5]
  · refine Vector.ext fun i hi => ?_
    match i, hi with
    | 0, _ => exact w prg[0]
    | 1, _ => exact w prg[1]
    | 2, _ => exact w prg[2]
    | 3, _ => exact w prg[3]

theorem loadSimple_saveSimple (r : SimpleRegs) : loadSimple (saveSimple r) = r := by
  have w : ∀ w : Word, w.extractLsb' 24 8 ++ w.extractLsb' 16 8 ++ w.extractLsb' 8 8 ++ w.extractLsb' 0 8 = w :=
    fun w => int32At_int32Bytes w []
  exact (SimpleRegs.mk.injEq ..).mpr ⟨w r.chrBank, w r.prgBank⟩

/-- A state read writes only the board's own register set. -/
theorem loadRegs_frame (b : List Byte) (s : State) :
    loadRegs b s = { s with mmc3 := (loadRegs b s).mmc3, simple := (loadRegs b s).simple } := by
  unfold loadRegs
  cases s.params.board <;> rfl

theorem loadRegs_mmc3 {s : State} (h : s.params.board = .mmc3) (b : List Byte) :
    (loadRegs b s).mmc3 = loadMmc3 b ∧ (loadRegs b s).simple = s.simple := by
  simp [loadRegs, h]

theorem loadRegs_simple {s : State} (h : s.params.board = .simple) (b : List Byte) :
    (loadRegs b s).mmc3 = s.mmc3 ∧ (loadRegs b s).simple = loadSimple b := by
  simp [loadRegs, h]

/-- What `LOAD` leaves: an underrun fault and nothing else, or the registers of the stream with their windows. -/
theorem loadStream_cases (b : List Byte) (s : State) :
    (b.length < layoutSize s.params.board ∧
        loadStream b s = s.raise (.codecUnderrun (layoutSize s.params.board) b.length)) ∨
      (layoutSize s.params.board ≤ b.length ∧
        loadStream b s =
          { (loadRegs b s).recompute with unread := b.drop (layoutSize s.params.board) }) := by
  by_cases h : b.length < layoutSize s.params.board
  · exact .inl ⟨h, by simp [loadStream, h]⟩
  · exact .inr ⟨Nat.not_lt.1 h, by simp [loadStream, h]⟩

end Sys2Proof.Machine
end

