-- ==== Sys2Proof/Laws/Exec.lean ====
section
/-!
SUPPORT. When each instruction answers a next state, and which: one lemma per arm of `exec`, all it can do. The state after is
said in the shared operations; `Sys2Proof.Laws.Ops` says what those can do.
-/

namespace Sys2Proof.Machine

variable {s t : State}

/-! ### The MMC3 register writes -/

theorem exec_bankSelect (a : BusAddr) (d : Byte) :
    exec (.bankSelect a d) s = .next t ↔ s.fault = none ∧
      t = if s.params.board = .mmc3 then
        State.recompute { s with mmc3 := { s.mmc3 with latch := fieldR d, flagP := fieldP d, flagC := fieldC d } }
      else s := by
  rw [exec, execBankSelect, onBoard_eq_next]

theorem exec_bankData (a : BusAddr) (d : Byte) :
    exec (.bankData a d) s = .next t ↔ s.fault = none ∧
      t = if s.params.board = .mmc3 then State.recompute { s with mmc3 := putBankData s.mmc3 d } else s := by
  rw [exec, execBankData, onBoard_eq_next]

theorem exec_mirroring (a : BusAddr) (d : Byte) :
    exec (.mirroring a d) s = .next t ↔ s.fault = none ∧
      t = if s.params.board = .mmc3 then (if s.params.wired = .full then s else { s with mirroring := fieldM d })
      else s := by
  rw [exec, execMirroring, onBoard_eq_next]

theorem exec_prgMode (a : BusAddr) (d : Byte) : exec (.prgMode a d) s = .next t ↔ s.fault = none ∧ t = s := by
  rw [exec, execPrgMode, onBoard_eq_next, ite_self]

theorem exec_irqReload (a : BusAddr) (d : Byte) :
    exec (.irqReload a d) s = .next t ↔ s.fault = none ∧
      t = if s.params.board = .mmc3 then
        { s with mmc3 := zeroCounter s.params.altIrq { s.mmc3 with irqReload := d } }
      else s := by
  rw [exec, execIrqReload, onBoard_eq_next]

theorem exec_irqClear (a : BusAddr) (d : Byte) :
    exec (.irqClear a d) s = .next t ↔ s.fault = none ∧
      t = if s.params.board = .mmc3 then { s with mmc3 := zeroCounter s.params.altIrq s.mmc3 } else s := by
  rw [exec, execIrqClear, onBoard_eq_next]

theorem exec_irqDisable (a : BusAddr) (d : Byte) :
    exec (.irqDisable a d) s = .next t ↔ s.fault = none ∧
      t = if s.params.board = .mmc3 then
        { s with mmc3 := { s.mmc3 with irqEnabled := false }, irqBoard := false }
      else s := by
  rw [exec, execIrqDisable, onBoard_eq_next]

theorem exec_irqEnable (a : BusAddr) (d : Byte) :
    exec (.irqEnable a d) s = .next t ↔ s.fault = none ∧
      t = if s.params.board = .mmc3 then { s with mmc3 := { s.mmc3 with irqEnabled := true } } else s := by
  rw [exec, execIrqEnable, onBoard_eq_next]

/-! ### The SIMPLE register write -/

theorem exec_simpleWrite (a : BusAddr) (d : Byte) :
    exec (.simpleWrite a d) s = .next t ↔ s.fault = none ∧
      t = if s.params.board = .simple then
        State.recompute { s with simple := { chrBank := fieldCB d, prgBank := fieldPB d } }
      else s := by
  rw [exec, execSimpleWrite, onBoard_eq_next]

/-! ### The bus ports -/

/-- An operation guarded by the fault mark that always completes. -/
theorem running_next_eq_next {f : State → State} :
    running s (fun s => .next (f s)) = .next t ↔ s.fault = none ∧ t = f s := by
  simp only [running_eq_next, Host.Outcome.next.injEq]
  exact and_congr_right fun _ => eq_comm

theorem exec_cwUndecoded (a : BusAddr) (d : Byte) : exec (.cwUndecoded a d) s = .next t ↔ s.fault = none ∧ t = s :=
  running_next_eq_next (f := fun s => s)

theorem exec_crPrg (a : BusAddr) :
    exec (.crPrg a) s = .next t ↔ s.fault = none ∧ t = finishRead s (windowReadPrg s a.toNat) :=
  running_next_eq_next (f := fun s => finishRead s (windowReadPrg s a.toNat))

theorem exec_crOpenBus (a : BusAddr) :
    exec (.crOpenBus a) s = .next t ↔ s.fault = none ∧ t = s.putReadData (some Config.openBus) :=
  running_next_eq_next (f := fun s => s.putReadData (some Config.openBus))

theorem exec_prChr (a : PpuAddr) :
    exec (.prChr a) s = .next t ↔ s.fault = none ∧ t = finishRead s (windowReadChr s a.toNat) :=
  running_next_eq_next (f := fun s => finishRead s (windowReadChr s a.toNat))

theorem exec_prNotServed (a : PpuAddr) :
    exec (.prNotServed a) s = .next t ↔ s.fault = none ∧ t = s.putReadData none :=
  running_next_eq_next (f := fun s => s.putReadData none)

theorem exec_pwChr (a : PpuAddr) (d : Byte) :
    exec (.pwChr a d) s = .next t ↔ s.fault = none ∧ t = windowWriteChr s a.toNat d :=
  running_next_eq_next (f := fun s => windowWriteChr s a.toNat d)

theorem exec_pwNotServed (a : PpuAddr) (d : Byte) : exec (.pwNotServed a d) s = .next t ↔ s.fault = none ∧ t = s :=
  running_next_eq_next (f := fun s => s)

/-! ### The events -/

theorem exec_a12 : exec .a12 s = .next t ↔ s.fault = none ∧ t = if s.params.board = .mmc3 then irqEdge s else s := by
  rw [exec, execA12, onBoard_eq_next]

theorem exec_reset : exec .reset s = .next t ↔ s.fault = none ∧ t = hardReset s :=
  running_next_eq_next

theorem exec_save : exec .save s = .next t ↔ s.fault = none ∧ t = { s with stream := s.stream ++ saveBytes s } :=
  running_next_eq_next (f := fun s => { s with stream := s.stream ++ saveBytes s })

theorem exec_load (bytes : List Byte) : exec (.load bytes) s = .next t ↔ s.fault = none ∧ t = loadStream bytes s :=
  running_next_eq_next

theorem exec_ack : exec .ack s = .next t ↔ s.fault = none ∧ t = { s with irqBoard := false } :=
  running_next_eq_next (f := fun s => { s with irqBoard := false })

/-- What a bank-data write can change of the registers: one of `chr[0..5]`, `prg[0]`, `prg[1]`, or none. -/
theorem putBankData_cases (r : Mmc3Regs) (d : Byte) :
    (∃ k : Fin 6, putBankData r d = { r with chr := r.chr.set k (zext32 d) }) ∨
      putBankData r d = { r with prg := r.prg.set 0 (zext32 d) } ∨
      putBankData r d = { r with prg := r.prg.set 1 (zext32 d) } ∨
      putBankData r d = r := by
  unfold putBankData
  split
  · exact .inl ⟨0, rfl⟩
  split
  · exact .inl ⟨1, rfl⟩
  split
  · exact .inl ⟨2, rfl⟩
  split
  · exact .inl ⟨3, rfl⟩
  split
  · exact .inl ⟨4, rfl⟩
  split
  · exact .inl ⟨5, rfl⟩
  split
  · exact .inr (.inl rfl)
  split
  · exact .inr (.inr (.inl rfl))
  · exact .inr (.inr (.inr rfl))

/-! ### What an instruction can do -/

/-- Every way a board can move from `s` by `i`, with a name each. `unchanged` holds an operation with no effect, one of the
other variant, and a PPU write to ROM. -/
inductive Effect : Instr → State → State → Prop
  | unchanged (i : Instr) (s : State) : Effect i s s
  | crPrg (a : BusAddr) (s : State) (v : Byte) : Effect (.crPrg a) s (s.putReadData (some v))
  | crOpenBus (a : BusAddr) (s : State) : Effect (.crOpenBus a) s (s.putReadData (some Config.openBus))
  | prChr (a : PpuAddr) (s : State) (v : Byte) : Effect (.prChr a) s (s.putReadData (some v))
  | prNotServed (a : PpuAddr) (s : State) : Effect (.prNotServed a) s (s.putReadData none)
  | crPrgOut (a : BusAddr) (s : State) (w : Option Window) :
      Effect (.crPrg a) s (s.raise (.outOfBounds .prg w a.toNat))
  | prChrOut (a : PpuAddr) (s : State) (w : Option Window) :
      Effect (.prChr a) s (s.raise (.outOfBounds .chr w a.toNat))
  | pwChrOut (a : PpuAddr) (d : Byte) (s : State) (w : Option Window) :
      Effect (.pwChr a d) s (s.raise (.outOfBounds .chr w a.toNat))
  | pwChr (a : PpuAddr) (d : Byte) (s : State) (o : Nat) (ram : s.params.chrIsRam = true) (lt : o < s.params.chrSize) :
      Effect (.pwChr a d) s { s with chrRam := Memory.write s.chrRam o d }
  | bankSelect (a : BusAddr) (d : Byte) (s : State) (board : s.params.board = .mmc3) :
      Effect (.bankSelect a d) s (State.recompute { s with
        mmc3 := { s.mmc3 with latch := fieldR d, flagP := fieldP d, flagC := fieldC d } })
  | bankData (a : BusAddr) (d : Byte) (s : State) (board : s.params.board = .mmc3) :
      Effect (.bankData a d) s (State.recompute { s with mmc3 := putBankData s.mmc3 d })
  | mirroring (a : BusAddr) (d : Byte) (s : State) (board : s.params.board = .mmc3) (wired : s.params.wired ≠ .full) :
      Effect (.mirroring a d) s { s with mirroring := fieldM d }
  | irqReload (a : BusAddr) (d : Byte) (s : State) (board : s.params.board = .mmc3) :
      Effect (.irqReload a d) s { s with mmc3 := zeroCounter s.params.altIrq { s.mmc3 with irqReload := d } }
  | irqClear (a : BusAddr) (d : Byte) (s : State) (board : s.params.board = .mmc3) :
      Effect (.irqClear a d) s { s with mmc3 := zeroCounter s.params.altIrq s.mmc3 }
  | irqDisable (a : BusAddr) (d : Byte) (s : State) (board : s.params.board = .mmc3) :
      Effect (.irqDisable a d) s { s with mmc3 := { s.mmc3 with irqEnabled := false }, irqBoard := false }
  | irqEnable (a : BusAddr) (d : Byte) (s : State) (board : s.params.board = .mmc3) :
      Effect (.irqEnable a d) s { s with mmc3 := { s.mmc3 with irqEnabled := true } }
  | simpleWrite (a : BusAddr) (d : Byte) (s : State) (board : s.params.board = .simple) :
      Effect (.simpleWrite a d) s
        (State.recompute { s with simple := { chrBank := fieldCB d, prgBank := fieldPB d } })
  | a12 (s : State) (board : s.params.board = .mmc3) : Effect .a12 s (irqEdge s)
  | reset (s : State) : Effect .reset s (hardReset s)
  | save (s : State) : Effect .save s { s with stream := s.stream ++ saveBytes s }
  | loadShort (b : List Byte) (s : State) (short : b.length < layoutSize s.params.board) :
      Effect (.load b) s (s.raise (.codecUnderrun (layoutSize s.params.board) b.length))
  | load (b : List Byte) (s : State) (enough : layoutSize s.params.board ≤ b.length) :
      Effect (.load b) s { (loadRegs b s).recompute with unread := b.drop (layoutSize s.params.board) }
  | ack (s : State) : Effect .ack s { s with irqBoard := false }

/-- Say once what an instruction can do: where `exec` answers a next state, no fault was recorded and the move is one of
`Effect`. -/
theorem exec_effect {i : Instr} (h : exec i s = .next t) : s.fault = none ∧ Effect i s t := by
  cases i with
  | bankSelect a d =>
    obtain ⟨hf, rfl⟩ := (exec_bankSelect a d).1 h
    refine ⟨hf, ?_⟩
    split
    · exact .bankSelect a d s ‹_›
    · exact .unchanged _ s
  | bankData a d =>
    obtain ⟨hf, rfl⟩ := (exec_bankData a d).1 h
    refine ⟨hf, ?_⟩
    split
    · exact .bankData a d s ‹_›
    · exact .unchanged _ s
  | mirroring a d =>
    obtain ⟨hf, rfl⟩ := (exec_mirroring a d).1 h
    refine ⟨hf, ?_⟩
    split
    · split
      · exact .unchanged _ s
      · exact .mirroring a d s ‹_› ‹_›
    · exact .unchanged _ s
  | prgMode a d =>
    obtain ⟨hf, rfl⟩ := (exec_prgMode a d).1 h
    exact ⟨hf, .unchanged _ _⟩
  | irqReload a d =>
    obtain ⟨hf, rfl⟩ := (exec_irqReload a d).1 h
    refine ⟨hf, ?_⟩
    split
    · exact .irqReload a d s ‹_›
    · exact .unchanged _ s
  | irqClear a d =>
    obtain ⟨hf, rfl⟩ := (exec_irqClear a d).1 h
    refine ⟨hf, ?_⟩
    split
    · exact .irqClear a d s ‹_›
    · exact .unchanged _ s
  | irqDisable a d =>
    obtain ⟨hf, rfl⟩ := (exec_irqDisable a d).1 h
    refine ⟨hf, ?_⟩
    split
    · exact .irqDisable a d s ‹_›
    · exact .unchanged _ s
  | irqEnable a d =>
    obtain ⟨hf, rfl⟩ := (exec_irqEnable a d).1 h
    refine ⟨hf, ?_⟩
    split
    · exact .irqEnable a d s ‹_›
    · exact .unchanged _ s
  | simpleWrite a d =>
    obtain ⟨hf, rfl⟩ := (exec_simpleWrite a d).1 h
    refine ⟨hf, ?_⟩
    split
    · exact .simpleWrite a d s ‹_›
    · exact .unchanged _ s
  | cwUndecoded a d =>
    obtain ⟨hf, rfl⟩ := (exec_cwUndecoded a d).1 h
    exact ⟨hf, .unchanged _ _⟩
  | crPrg a =>
    obtain ⟨hf, rfl⟩ := (exec_crPrg a).1 h
    refine ⟨hf, ?_⟩
    rcases finishRead_prg_cases s a.toNat with ⟨v, e⟩ | ⟨w, e⟩
    · exact e ▸ .crPrg a s v
    · exact e ▸ .crPrgOut a s w
  | crOpenBus a =>
    obtain ⟨hf, rfl⟩ := (exec_crOpenBus a).1 h
    exact ⟨hf, .crOpenBus a s⟩
  | prChr a =>
    obtain ⟨hf, rfl⟩ := (exec_prChr a).1 h
    refine ⟨hf, ?_⟩
    rcases finishRead_chr_cases s a.toNat with ⟨v, e⟩ | ⟨w, e⟩
    · exact e ▸ .prChr a s v
    · exact e ▸ .prChrOut a s w
  | prNotServed a =>
    obtain ⟨hf, rfl⟩ := (exec_prNotServed a).1 h
    exact ⟨hf, .prNotServed a s⟩
  | pwChr a d =>
    obtain ⟨hf, rfl⟩ := (exec_pwChr a d).1 h
    refine ⟨hf, ?_⟩
    rcases windowWriteChr_cases s a.toNat d with ⟨o, lt, ram, e⟩ | ⟨-, e⟩ | ⟨w, e⟩
    · exact e ▸ .pwChr a d s o ram lt
    · rw [e]
      exact .unchanged _ s
    · exact e ▸ .pwChrOut a d s w
  | pwNotServed a d =>
    obtain ⟨hf, rfl⟩ := (exec_pwNotServed a d).1 h
    exact ⟨hf, .unchanged _ _⟩
  | a12 =>
    obtain ⟨hf, rfl⟩ := exec_a12.1 h
    refine ⟨hf, ?_⟩
    split
    · exact .a12 s ‹_›
    · exact .unchanged _ s
  | reset =>
    obtain ⟨hf, rfl⟩ := exec_reset.1 h
    exact ⟨hf, .reset s⟩
  | save =>
    obtain ⟨hf, rfl⟩ := exec_save.1 h
    exact ⟨hf, .save s⟩
  | load b =>
    obtain ⟨hf, rfl⟩ := (exec_load b).1 h
    refine ⟨hf, ?_⟩
    rcases loadStream_cases b s with ⟨short, e⟩ | ⟨enough, e⟩
    · exact e ▸ .loadShort b s short
    · exact e ▸ .load b s enough
  | ack =>
    obtain ⟨hf, rfl⟩ := exec_ack.1 h
    exact ⟨hf, .ack s⟩

/-! ### The step -/

/-- What a step can be: nothing with no input left, the decoded operation, or an address at the detector. -/
theorem step_cases (s : State) :
    (s.pending = [] ∧ step s = running s .next) ∨
      (∃ o rest, s.pending = .op o :: rest ∧ step s = exec (decode s.params o) (s.putPending rest)) ∨
      ∃ a rest, s.pending = .ppuAddress a :: rest ∧ step s = sampleAddress a (s.putPending rest) := by
  unfold step runNext
  split
  · exact .inl ⟨‹_›, rfl⟩
  · exact .inr (.inl ⟨_, _, ‹_›, rfl⟩)
  · exact .inr (.inr ⟨_, _, ‹_›, rfl⟩)

/-- A word of the opcode table placed in front of the sequence is what the step runs, on the board as it was. -/
theorem step_withFetchWord (s : State) (w : Nat) :
    step (s.withFetchWord 16 w) =
      exec (decode s.params (.cw (BitVec.ofNat 16 (w % 65536)) (BitVec.ofNat 8 (w % 65536 / 65536)))) s := rfl

end Sys2Proof.Machine
end

