-- ==== Sys2Proof/Laws/PerInstr.lean ====
section
/-!
SUPPORT. The family DecodedForm: an instruction that is the decode of its own encoding meets the address conditions of its
row, whatever the board. One lemma per constructor.
-/

namespace Sys2Proof.Laws

/-- If the decode of the encoding of `i` is `i`, then `i` meets the address conditions of its row. -/
def DecodedForm.Statement (i : Instr) : Prop :=
  ∀ p, decode p (encode i) = i → WellFormed p i

/-! ### What the decode of a CPU write can be -/

theorem decodeCpuWrite_cases (p : Params) (a : BusAddr) (d : Byte) :
    (a[15] = false ∧ decodeCpuWrite p a d = .cwUndecoded a d) ∨
      (a[15] = true ∧ p.board = .mmc3 ∧ decodeCpuWrite p a d = decodeSlot (slotAt p.slotMap a) a d) ∨
      (a[15] = true ∧ p.board = .simple ∧ decodeCpuWrite p a d = .simpleWrite a d) := by
  cases h : a[15] <;> cases b : p.board <;> simp [decodeCpuWrite, h, b]

/-- The decode of a CPU write meets the address conditions of its row. -/
theorem decodeCpuWrite_wellFormed (p : Params) (a : BusAddr) (d : Byte) : WellFormed p (decodeCpuWrite p a d) := by
  rcases decodeCpuWrite_cases p a d with ⟨h, e⟩ | ⟨h, b, e⟩ | ⟨h, b, e⟩
  · simp [e, WellFormed, wellFormed, h]
  · rw [e]
    cases c : slotAt p.slotMap a <;> simp [decodeSlot, WellFormed, wellFormed, selectsSlot, h, b, c]
  · simp [e, WellFormed, wellFormed, h, b]

/-- A PPU address keeps its 14 bits through the encoding. -/
theorem ppuReduce_setWidth (a : PpuAddr) : ppuReduce (a.setWidth 16) = a := by
  simp [ppuReduce]

/-! ### The family -/

theorem DecodedForm.bankSelect (a : BusAddr) (d : Byte) : DecodedForm.Statement (.bankSelect a d) := by
  intro p h
  exact h ▸ decodeCpuWrite_wellFormed p a d

theorem DecodedForm.bankData (a : BusAddr) (d : Byte) : DecodedForm.Statement (.bankData a d) := by
  intro p h
  exact h ▸ decodeCpuWrite_wellFormed p a d

theorem DecodedForm.mirroring (a : BusAddr) (d : Byte) : DecodedForm.Statement (.mirroring a d) := by
  intro p h
  exact h ▸ decodeCpuWrite_wellFormed p a d

theorem DecodedForm.prgMode (a : BusAddr) (d : Byte) : DecodedForm.Statement (.prgMode a d) := by
  intro p h
  exact h ▸ decodeCpuWrite_wellFormed p a d

theorem DecodedForm.irqReload (a : BusAddr) (d : Byte) : DecodedForm.Statement (.irqReload a d) := by
  intro p h
  exact h ▸ decodeCpuWrite_wellFormed p a d

theorem DecodedForm.irqClear (a : BusAddr) (d : Byte) : DecodedForm.Statement (.irqClear a d) := by
  intro p h
  exact h ▸ decodeCpuWrite_wellFormed p a d

theorem DecodedForm.irqDisable (a : BusAddr) (d : Byte) : DecodedForm.Statement (.irqDisable a d) := by
  intro p h
  exact h ▸ decodeCpuWrite_wellFormed p a d

theorem DecodedForm.irqEnable (a : BusAddr) (d : Byte) : DecodedForm.Statement (.irqEnable a d) := by
  intro p h
  exact h ▸ decodeCpuWrite_wellFormed p a d

theorem DecodedForm.simpleWrite (a : BusAddr) (d : Byte) : DecodedForm.Statement (.simpleWrite a d) := by
  intro p h
  exact h ▸ decodeCpuWrite_wellFormed p a d

theorem DecodedForm.cwUndecoded (a : BusAddr) (d : Byte) : DecodedForm.Statement (.cwUndecoded a d) := by
  intro p h
  exact h ▸ decodeCpuWrite_wellFormed p a d

theorem DecodedForm.crPrg (a : BusAddr) : DecodedForm.Statement (.crPrg a) := by
  intro p h
  simp only [encode, decode, decodeCpuRead] at h
  split at h <;> simp_all [WellFormed, wellFormed]

theorem DecodedForm.crOpenBus (a : BusAddr) : DecodedForm.Statement (.crOpenBus a) := by
  intro p h
  simp only [encode, decode, decodeCpuRead] at h
  split at h <;> simp_all [WellFormed, wellFormed]

theorem DecodedForm.prChr (a : PpuAddr) : DecodedForm.Statement (.prChr a) := by
  intro p h
  simp only [encode, decode, ppuReduce_setWidth, decodePpuRead] at h
  split at h <;> simp_all [WellFormed, wellFormed]

theorem DecodedForm.prNotServed (a : PpuAddr) : DecodedForm.Statement (.prNotServed a) := by
  intro p h
  simp only [encode, decode, ppuReduce_setWidth, decodePpuRead] at h
  split at h <;> simp_all [WellFormed, wellFormed]

theorem DecodedForm.pwChr (a : PpuAddr) (d : Byte) : DecodedForm.Statement (.pwChr a d) := by
  intro p h
  simp only [encode, decode, ppuReduce_setWidth, decodePpuWrite] at h
  split at h <;> simp_all [WellFormed, wellFormed]

theorem DecodedForm.pwNotServed (a : PpuAddr) (d : Byte) : DecodedForm.Statement (.pwNotServed a d) := by
  intro p h
  simp only [encode, decode, ppuReduce_setWidth, decodePpuWrite] at h
  split at h <;> simp_all [WellFormed, wellFormed]

theorem DecodedForm.a12 : DecodedForm.Statement .a12 := by
  intro p _
  rfl

theorem DecodedForm.reset : DecodedForm.Statement .reset := by
  intro p _
  rfl

theorem DecodedForm.save : DecodedForm.Statement .save := by
  intro p _
  rfl

theorem DecodedForm.load (bytes : List Byte) : DecodedForm.Statement (.load bytes) := by
  intro p _
  rfl

theorem DecodedForm.ack : DecodedForm.Statement .ack := by
  intro p _
  rfl

end Sys2Proof.Laws
end

