-- ==== Sys2Proof/Tests/Slice0.lean ====
section
/-!
SUPPORT. The model's own tests: the ill-formed term each check of WellFormed refuses, words written out from the encoding
tables, small steps whose expected results are those of spec/95_test_vectors.md (named in each docstring by its vector), and
for every statement with hypotheses a state and operands that meet them together.
-/

namespace Sys2Proof.Tests

open Sys2Proof.Machine

/-! ### Boards -/

/-- The MMC3 board of spec/95_test_vectors.md after reset, with a few ROM bytes known. -/
def mmc3Board : State :=
  { State.reset with
    params := { defaultParams with
      prg := [(0x0A000, 0x0A), (0x3C000, 0x3C), (0x3FFFC, 0xFC)]
      chrRom := [(0x00010, 0x10), (0x01405, 0x14), (0x08C05, 0x8C)] } }

/-- The same board with CHR RAM. -/
def ramBoard : State := { State.reset with params := { defaultParams with chrIsRam := true } }

/-- The SIMPLE configuration of spec/95_test_vectors.md. -/
def simpleParams : Params :=
  { defaultParams with
    board := .simple
    prgSize := 131072
    chrSize := 32768
    prg := [(0x14000, 0x14), (0x1C000, 0x1C), (0x1FFFC, 0xFC)]
    chrRom := [(0x2000, 0x20), (0x6000, 0x60)] }

def simpleBoard : State := hardReset (unreset simpleParams)

/-- A board with other MMC3 registers and the windows they give. -/
def withRegs (s : State) (r : Mmc3Regs) : State := State.recompute { s with mmc3 := r }

/-- The state after an operation that answers a next state. -/
def after (s : State) (o : HostOp) : Option State :=
  match exec (decode s.params o) s with
  | .next t => some t
  | _ => none

/-- A field after an operation. -/
def see {α : Type} (s : State) (o : HostOp) (f : State → α) : Option α := (after s o).map f

/-! ### The boards meet the invariant -/

theorem mmc3Board_inv : Inv mmc3Board where
  sizes := ⟨⟨5, by decide⟩, ⟨4, by decide⟩⟩
  lists := ⟨⟨by decide, by decide⟩, ⟨by decide, by decide⟩, ⟨by decide, by decide⟩⟩
  windows := by decide +kernel
  ram := ⟨by decide, by decide⟩
  romHasNoRam := by decide
  fixedMode := by decide
  quiet := by decide
  noSimple := by decide
  noMmc3 := by decide
  inBounds := by intro _ _ _ h; cases h

theorem ramBoard_inv : Inv ramBoard where
  sizes := ⟨⟨5, by decide⟩, ⟨4, by decide⟩⟩
  lists := ⟨⟨by decide, by decide⟩, ⟨by decide, by decide⟩, ⟨by decide, by decide⟩⟩
  windows := by decide +kernel
  ram := ⟨by decide, by decide⟩
  romHasNoRam := by decide
  fixedMode := by decide
  quiet := by decide
  noSimple := by decide
  noMmc3 := by decide
  inBounds := by intro _ _ _ h; cases h

theorem simpleBoard_inv : Inv simpleBoard where
  sizes := ⟨⟨3, by decide⟩, ⟨2, by decide⟩⟩
  lists := ⟨⟨by decide, by decide⟩, ⟨by decide, by decide⟩, ⟨by decide, by decide⟩⟩
  windows := by decide +kernel
  ram := ⟨by decide, by decide⟩
  romHasNoRam := by decide
  fixedMode := by decide
  quiet := by decide
  noSimple := by decide
  noMmc3 := by decide
  inBounds := by intro _ _ _ h; cases h

/-! ### WellFormed refuses -/

/-- Each MMC3 slot at a key that is another slot's. -/
theorem test_wellFormed_slot_key :
    wellFormed defaultParams (.bankSelect 0x8001#16 0) = false ∧
    wellFormed defaultParams (.bankData 0x8000#16 0) = false ∧
    wellFormed defaultParams (.mirroring 0xA001#16 0) = false ∧
    wellFormed defaultParams (.prgMode 0xA000#16 0) = false ∧
    wellFormed defaultParams (.irqReload 0xC001#16 0) = false ∧
    wellFormed defaultParams (.irqClear 0xC000#16 0) = false ∧
    wellFormed defaultParams (.irqDisable 0xE001#16 0) = false ∧
    wellFormed defaultParams (.irqEnable 0xE000#16 0) = false := by decide

/-- A register write below $8000, or of the other variant. -/
theorem test_wellFormed_write_side :
    wellFormed defaultParams (.irqEnable 0x6001#16 0) = false ∧
    wellFormed simpleParams (.bankSelect 0x8000#16 0) = false ∧
    wellFormed simpleParams (.simpleWrite 0x7FFF#16 0) = false ∧
    wellFormed defaultParams (.simpleWrite 0x8000#16 0) = false := by decide

/-- An undecoded write at an address that decodes, and reads on the wrong side of $8000. -/
theorem test_wellFormed_cpu_side :
    wellFormed defaultParams (.cwUndecoded 0x8000#16 0) = false ∧
    wellFormed simpleParams (.cwUndecoded 0x8000#16 0) = false ∧
    wellFormed defaultParams (.crPrg 0x7FFF#16) = false ∧
    wellFormed defaultParams (.crOpenBus 0x8000#16) = false := by decide

/-- PPU accesses on the wrong side of $2000. -/
theorem test_wellFormed_ppu_side :
    wellFormed defaultParams (.prChr 0x2000#14) = false ∧
    wellFormed defaultParams (.prNotServed 0x1FFF#14) = false ∧
    wellFormed defaultParams (.pwChr 0x3FFF#14 0) = false ∧
    wellFormed defaultParams (.pwNotServed 0x0000#14 0) = false := by decide

/-! ### Words written out from the encodings (spec/30_encoding.md) -/

/-- The eight keys of the default map, the ignored bits a[12:1] at 1 and at 0 in turn (R91, R92). -/
theorem test_decode_mmc3_slots :
    decode defaultParams (.cw 0b1001111111111110#16 6) = .bankSelect 0x9FFE#16 6 ∧
    decode defaultParams (.cw 0b1000000000000001#16 6) = .bankData 0x8001#16 6 ∧
    decode defaultParams (.cw 0b1011111111111110#16 6) = .mirroring 0xBFFE#16 6 ∧
    decode defaultParams (.cw 0b1010000000000001#16 6) = .prgMode 0xA001#16 6 ∧
    decode defaultParams (.cw 0b1101111111111110#16 6) = .irqReload 0xDFFE#16 6 ∧
    decode defaultParams (.cw 0b1100000000000001#16 6) = .irqClear 0xC001#16 6 ∧
    decode defaultParams (.cw 0b1111111111111110#16 6) = .irqDisable 0xFFFE#16 6 ∧
    decode defaultParams (.cw 0b1110000000000001#16 6) = .irqEnable 0xE001#16 6 := by decide

/-- SIMPLE decodes every address from $8000 up (R100). -/
theorem test_decode_simple_write :
    decode simpleParams (.cw 0b1000000000000000#16 0x17) = .simpleWrite 0x8000#16 0x17 ∧
    decode simpleParams (.cw 0b1111111111111111#16 0x17) = .simpleWrite 0xFFFF#16 0x17 ∧
    decode simpleParams (.cw 0b0111111111111111#16 0x17) = .cwUndecoded 0x7FFF#16 0x17 := by decide

/-- A custom map decides the slot, and a key bound to NONE decodes to no register (R93, log entry 9). -/
theorem test_decode_custom_map :
    decode { defaultParams with slotMap := { defaultSlotMap with kC000 := .irqEnable, kE001 := .none } }
      (.cw 0b1100000000000010#16 1) = .irqEnable 0xC002#16 1 ∧
    decode { defaultParams with slotMap := { defaultSlotMap with kC000 := .irqEnable, kE001 := .none } }
      (.cw 0b1110000000000011#16 1) = .cwUndecoded 0xE003#16 1 := by decide

/-- The port forms at the edges of their ranges (R101, R102). -/
theorem test_decode_ports :
    decode defaultParams (.cw 0b0111111111111111#16 1) = .cwUndecoded 0x7FFF#16 1 ∧
    decode defaultParams (.cr 0b1000000000000000#16) = .crPrg 0x8000#16 ∧
    decode defaultParams (.cr 0b0111111111111111#16) = .crOpenBus 0x7FFF#16 ∧
    decode defaultParams (.pr 0b0001111111111111#16) = .prChr 0x1FFF#14 ∧
    decode defaultParams (.pr 0b0010000000000000#16) = .prNotServed 0x2000#14 ∧
    decode defaultParams (.pw 0b0000000000000000#16 1) = .pwChr 0x0000#14 1 ∧
    decode defaultParams (.pw 0b0011111111111111#16 1) = .pwNotServed 0x3FFF#14 1 := by decide

/-- P-10: an address wider than 14 bits is reduced first. -/
theorem test_decode_wide_ppu_address :
    decode defaultParams (.pr 0b0101000000000000#16) = .prChr 0x1000#14 ∧
    decode defaultParams (.pw 0b1110000000000000#16 1) = .pwNotServed 0x2000#14 1 := by decide

/-- The event forms (R104). -/
theorem test_decode_events :
    decode defaultParams .a12 = .a12 ∧ decode defaultParams .reset = .reset ∧ decode defaultParams .save = .save ∧
    decode defaultParams (.load [1, 2]) = .load [1, 2] ∧ decode defaultParams .ack = .ack := by decide

/-- Words of spec/opcode_table.json: sixteen address bits, and a data byte above them where given; an event has none. -/
theorem test_decodeTableWord :
    decodeTableWord 16 0x8000 = some (.bankSelect 0x8000#16 0) ∧
    decodeTableWord 16 0xE001 = some (.irqEnable 0xE001#16 0) ∧
    decodeTableWord 16 0x0000 = some (.cwUndecoded 0x0000#16 0) ∧
    decodeTableWord 24 0x058001 = some (.bankData 0x8001#16 5) ∧
    decodeTableWord 0 0 = none := by decide

/-- A placed word is what the next step runs. -/
theorem test_withFetchWord_runs :
    step (State.reset.withFetchWord 16 0xE001) =
      .next { State.reset with mmc3 := { State.reset.mmc3 with irqEnabled := true } } := rfl

/-! ### The MMC3 register writes (95 section 2.3) -/

/-- M1. -/
theorem test_bankSelect_fields :
    see mmc3Board (.cw 0x8000#16 0xC7) (fun t => (t.mmc3.latch, t.mmc3.flagP, t.mmc3.flagC, t.mirroring)) =
      some (7#32, true, true, .vertical) := by decide +kernel

/-- M2: bits 5:3 are ignored. -/
theorem test_bankSelect_ignored_bits :
    see mmc3Board (.cw 0x8000#16 0x38) (fun t => (t.mmc3.latch, t.mmc3.flagP, t.mmc3.flagC)) =
      some (0#32, false, false) := by decide +kernel

/-- M3: the register takes the whole byte, and the 2K window at $0000 the masked bank 63. -/
theorem test_bankData_chr :
    see mmc3Board (.cw 0x8001#16 0xFF) (fun t => (t.mmc3.chr[0], (lookup t.windows .chr 0).map (·.index))) =
      some (255#32, some 63) := by decide +kernel

/-- M7: a loaded latch of 9 selects no register. -/
theorem test_bankData_wide_latch :
    see (withRegs mmc3Board { mmc3Board.mmc3 with latch := 9 }) (.cw 0x8001#16 0x12) (fun t => (t.mmc3.chr, t.mmc3.prg)) =
      some (mmc3Board.mmc3.chr, mmc3Board.mmc3.prg) := by decide +kernel

/-- M8 and M9. -/
theorem test_mirroring_bit :
    see mmc3Board (.cw 0xA000#16 0x01) (·.mirroring) = some .horizontal ∧
    see { mmc3Board with mirroring := .horizontal } (.cw 0xA000#16 0xFE) (·.mirroring) = some .vertical := by
  decide +kernel

/-- M11. -/
theorem test_mirroring_full :
    see { mmc3Board with params := { defaultParams with wired := .full }, mirroring := .full } (.cw 0xA000#16 0x01)
      (·.mirroring) = some .full := by decide +kernel

/-- M19. -/
theorem test_prgMode_no_effect : after mmc3Board (.cw 0xA001#16 0x80) = some mmc3Board := rfl

/-- M12. -/
theorem test_irqReload :
    see (withRegs mmc3Board { mmc3Board.mmc3 with irqCounter := 7 }) (.cw 0xC000#16 0x05)
      (fun t => (t.mmc3.irqReload, t.mmc3.irqCounter, t.mmc3.irqClearPending)) = some (5#8, 0#8, false) := by
  decide +kernel

/-- M13: the alternate revision. -/
theorem test_irqReload_alt :
    see { mmc3Board with params := { defaultParams with altIrq := true } } (.cw 0xC000#16 0x05)
      (fun t => (t.mmc3.irqReload, t.mmc3.irqCounter, t.mmc3.irqClearPending)) = some (5#8, 0#8, true) := by
  decide +kernel

/-- M14. -/
theorem test_irqClear :
    see (withRegs mmc3Board { mmc3Board.mmc3 with irqReload := 3, irqCounter := 2 }) (.cw 0xC001#16 0x99)
      (fun t => (t.mmc3.irqReload, t.mmc3.irqCounter)) = some (3#8, 0#8) := by decide +kernel

/-- M15: the alternate revision. -/
theorem test_irqClear_alt :
    see { mmc3Board with params := { defaultParams with altIrq := true } } (.cw 0xC001#16 0x00)
      (fun t => (t.mmc3.irqCounter, t.mmc3.irqClearPending)) = some (0#8, true) := by decide +kernel

/-- M16. -/
theorem test_irqDisable :
    see { withRegs mmc3Board { mmc3Board.mmc3 with irqEnabled := true } with irqBoard := true } (.cw 0xE000#16 0x00)
      (fun t => (t.mmc3.irqEnabled, t.irqBoard)) = some (false, false) := by decide +kernel

/-- M17. -/
theorem test_irqEnable :
    see { mmc3Board with irqBoard := true } (.cw 0xE001#16 0x00) (fun t => (t.mmc3.irqEnabled, t.irqBoard)) =
      some (true, true) := by decide +kernel

/-! ### The SIMPLE register write (95 section 2.7) -/

/-- S2, the source's worked example. -/
theorem test_simpleWrite :
    see simpleBoard (.cw 0x8000#16 0x17) (fun t => (t.simple.chrBank, t.simple.prgBank)) = some (3#32, 5#32) := by
  decide +kernel

/-- S3: bank 15 of an image of eight 16K banks maps bank 7. -/
theorem test_simpleWrite_masked :
    see simpleBoard (.cw 0xFFFF#16 0xFF) (fun t => (t.simple.prgBank, (lookup t.windows .prg 0x8000).map (·.index))) =
      some (15#32, some 7) := by decide +kernel

/-! ### The ports (95 section 2.2) -/

/-- P-4. -/
theorem test_cwUndecoded : after mmc3Board (.cw 0x6000#16 0xFF) = some mmc3Board := rfl

/-- P-1. -/
theorem test_crPrg_vector : see mmc3Board (.cr 0xFFFC#16) (·.readData) = some (some 0xFC#8) := by decide +kernel

/-- Program P1's read of $C000: with `flag_p` set and `prg[0]` 5 it is the byte at $0A000. -/
theorem test_crPrg_swapped :
    see (withRegs mmc3Board { mmc3Board.mmc3 with flagP := true, prg := #v[5, 6, 30, 31] }) (.cr 0xC000#16)
      (·.readData) = some (some 0x0A#8) := by decide +kernel

/-- P-3: the value is the free one. -/
theorem test_crOpenBus : see mmc3Board (.cr 0x6000#16) (·.readData) = some (some Config.openBus) := rfl

/-- 95 section 2.4, the closed-form checks at $1C05 for both layouts. -/
theorem test_prChr_layouts :
    see (withRegs mmc3Board { mmc3Board.mmc3 with
      flagC := true, chr := #v[0x11, 0x04, 0x20, 0x21, 0x22, 0x23] }) (.pr 0x1C05#16) (·.readData) =
      some (some 0x14#8) ∧
    see (withRegs mmc3Board { mmc3Board.mmc3 with chr := #v[0x11, 0x04, 0x20, 0x21, 0x22, 0x23] }) (.pr 0x1C05#16)
      (·.readData) = some (some 0x8C#8) := by decide +kernel

/-- S2: the SIMPLE CHR bank. -/
theorem test_prChr_simple :
    see (State.recompute { simpleBoard with simple := { chrBank := 3, prgBank := 5 } }) (.pr 0x0000#16) (·.readData) =
      some (some 0x60#8) := by decide +kernel

/-- P-9. -/
theorem test_prNotServed :
    see { mmc3Board with readData := some 1 } (.pr 0x2000#16) (·.readData) = some none := by decide +kernel

/-- P-7: the byte is in CHR RAM. -/
theorem test_pwChr_ram : see ramBoard (.pw 0x0010#16 0xAA) (·.chrRam) = some [(0x10, 0xAA)] := by decide +kernel

/-- P-8: a write to CHR ROM is ignored. -/
theorem test_pwChr_rom : after mmc3Board (.pw 0x0010#16 0xAA) = some mmc3Board := by decide +kernel

/-- P-9. -/
theorem test_pwNotServed : after ramBoard (.pw 0x2400#16 0x01) = some ramBoard := rfl

/-! ### The events -/

/-- One edge on MMC3 from the given flags: prior counter, counter, interrupt bit and pending clear after it. -/
def edge (alt : Bool) (counter reload : Byte) (cp en : Bool) : Option (Word × Byte × Bool × Bool) :=
  see { mmc3Board with
    params := { defaultParams with altIrq := alt }
    mmc3 := { mmc3Board.mmc3 with
      irqCounter := counter, irqReload := reload, irqClearPending := cp, irqEnabled := en } } .a12
    fun t => (t.mmc3.priorIrqCounter, t.mmc3.irqCounter, t.irqBoard, t.mmc3.irqClearPending)

/-- I1 to I5 and I11, I12: the standard revision. -/
theorem test_a12_standard :
    [edge false 5 9 false true, edge false 1 9 false true, edge false 1 9 false false, edge false 0 9 false true,
      edge false 0 0 false true, edge false 255 9 false true, edge false 7 3 true true] =
    [some (5, 4, false, false), some (1, 0, true, false), some (1, 0, false, false), some (0, 9, false, false),
      some (0, 0, true, false), some (255, 254, false, false), some (7, 3, false, false)] := by decide +kernel

/-- I6 to I10 and I13: the alternate revision. -/
theorem test_a12_alternate :
    [edge true 0 0 false true, edge true 0 0 true true, edge true 7 3 true true, edge true 1 3 false true,
      edge true 7 0 true true, edge true 0 0 false false] =
    [some (0, 0, false, false), some (0, 0, true, false), some (7, 3, false, false), some (1, 0, true, false),
      some (7, 0, true, false), some (0, 0, false, false)] := by decide +kernel

/-- H1, and the detector's reset values (R211). -/
theorem test_reset_mmc3 :
    after { withRegs mmc3Board { mmc3Board.mmc3 with irqEnabled := true, prg := #v[9, 1, 30, 31] } with
      irqBoard := true, mirroring := .horizontal, detector := { a12Prev := true, lowRun := 3 } } .reset =
      some mmc3Board := by decide +kernel

/-- H2: CHR RAM survives. -/
theorem test_reset_keeps_ram :
    see { ramBoard with chrRam := [(0x10, 0xAA)] } .reset (·.chrRam) = some [(0x10, 0xAA)] := by decide +kernel

/-- Codec C1: the 54 bytes of the MMC3 reset state. -/
theorem test_save_mmc3 :
    see mmc3Board .save (·.stream) =
      some (List.replicate 34 0 ++ [1, 0, 0, 0, 0x1E, 0, 0, 0, 0x1F, 0, 0, 0] ++ List.replicate 6 0 ++ [0xFF, 0]) := by
  decide +kernel

/-- C7. -/
theorem test_save_simple :
    see { simpleBoard with simple := { chrBank := 3, prgBank := 5 } } .save (·.stream) =
      some [3, 0, 0, 0, 5, 0, 0, 0] := by decide +kernel

/-- Codec C1's stream, and C3 and C5 in one: byte 0 is 2 and `prg[0]` is -1, which P0 maps to bank 31. -/
def c1 : List Byte := List.replicate 34 0 ++ [1, 0, 0, 0, 0x1E, 0, 0, 0, 0x1F, 0, 0, 0] ++ List.replicate 6 0 ++ [0xFF, 0]

theorem test_load_mmc3 :
    see mmc3Board (.load ([2] ++ (c1.drop 1).take 29 ++ [0xFF, 0xFF, 0xFF, 0xFF] ++ c1.drop 34))
      (fun t => (t.mmc3.flagC, t.mmc3.prg[0], (lookup t.windows .prg 0x8000).map (·.index), t.mmc3.irqReload, t.unread)) =
      some (true, -1, some 31, 255, []) := by decide +kernel

/-- C6: 53 bytes are an underrun. C9: a SIMPLE board reads 8 bytes of C1 and leaves 46. -/
theorem test_load_lengths :
    see mmc3Board (.load (c1.take 53)) (·.fault) = some (some (.codecUnderrun 54 53)) ∧
    see simpleBoard (.load c1) (fun t => (t.simple.chrBank, t.simple.prgBank, t.unread.length, t.fault)) =
      some (0, 0, 46, none) := by decide +kernel

/-- P-14. -/
theorem test_ack :
    see { withRegs mmc3Board { mmc3Board.mmc3 with irqEnabled := true } with irqBoard := true } .ack
      (fun t => (t.irqBoard, t.mmc3.irqEnabled)) = some (false, true) := by decide +kernel

/-! ### Windows and construction -/

/-- W1 to W8 (95 section 2.1): the index of an assigned window and the offset of an address. -/
theorem test_bank_windows :
    windowTranslate defaultParams (assign defaultParams .prg 0x8000 .k8 5) 0x8123 = .ok 0xA123 ∧
    windowTranslate defaultParams (assign defaultParams .prg 0x8000 .k8 40) 0x8123 = .ok 0x10123 ∧
    windowTranslate defaultParams (assign defaultParams .prg 0xE000 .k8 (-1)) 0xFFFF = .ok 0x3FFFF ∧
    windowTranslate { defaultParams with prgSize := 8192 }
      (assign { defaultParams with prgSize := 8192 } .prg 0xC000 .k8 (-1)) 0xC000 = .ok 0 ∧
    windowTranslate defaultParams (assign defaultParams .chr 0x0000 .k2 (shr1 0x11)) 0x07FF = .ok 0x47FF ∧
    windowTranslate defaultParams (assign defaultParams .chr 0x0000 .k2 (shr1 (-3))) 0x0000 = .ok 0x1F000 ∧
    windowTranslate defaultParams (assign defaultParams .chr 0x1000 .k1 300) 0x1001 = .ok 0xB001 ∧
    windowTranslate simpleParams (assign simpleParams .prg 0xC000 .k16 7) 0xFFFC = .ok 0x1FFFC :=
  ⟨rfl, rfl, rfl, rfl, rfl, rfl, rfl, rfl⟩

/-- P-11 to P-13: construction refuses the sizes. -/
theorem test_construct_refuses :
    construct { defaultParams with prgSize := 40960 } = .refused (.configPrgSize 40960) ∧
    construct { simpleParams with prgSize := 8192 } = .refused (.configPrgSize 8192) ∧
    construct { defaultParams with chrSize := 12288 } = .refused (.configChrSize 12288) :=
  ⟨rfl, rfl, rfl⟩

/-- R211: bit 12 rising after a low sample delivers the edge, and the very next high sample does not. -/
theorem test_detector :
    detectorDelivers 0 { a12Prev := false, lowRun := 0 } 0x1000#14 = true ∧
    detectorDelivers 0 (detectorNext { a12Prev := false, lowRun := 0 } 0x1000#14) 0x1FFF#14 = false ∧
    detectorDelivers 2 { a12Prev := false, lowRun := 1 } 0x1000#14 = false := by decide

/-- R65: the nametables of horizontal and vertical mirroring. -/
theorem test_nametables :
    (nametablePage .horizontal 1, nametablePage .horizontal 2) = (0, 1) ∧
    (nametablePage .vertical 1, nametablePage .vertical 2) = (1, 0) := by decide

/-! ### Witnesses: states and operands that meet the hypotheses of each statement -/

/-- The MMC3 board with a latch value. -/
def latched (w : Word) : State := withRegs mmc3Board { mmc3Board.mmc3 with latch := w }

/-- The MMC3 board with other parameters. -/
def mmc3With (f : Params → Params) : State := { mmc3Board with params := f mmc3Board.params }

/-- A map whose $E001 key is bound to NONE. -/
def noneMap : SlotMap := { defaultSlotMap with kE001 := .none }

theorem witness_StepRunsDecodedOperation :
    { mmc3Board with pending := [.op .a12] }.pending = .op .a12 :: [] ∧
    mmc3Board.pending = [] ∧ mmc3Board.fault = none := by decide

theorem witness_DecodeEncodeRoundTrip :
    WellFormed defaultParams (.bankSelect 0x9FFE#16 0xFF) ∧ WellFormed defaultParams (.irqEnable 0xFFFF#16 0) ∧
    WellFormed { defaultParams with slotMap := noneMap } (.cwUndecoded 0xFFFF#16 0) ∧
    WellFormed simpleParams (.simpleWrite 0x8000#16 0) ∧ WellFormed defaultParams (.pwChr 0x1FFF#14 0) ∧
    WellFormed defaultParams (.load []) := by decide

theorem witness_OtherWriteAddressBitsAreIgnored :
    (mmc3Board.params.board = .mmc3 ∧ 0x8000#16 &&& 0xE001#16 = 0x9FFE#16 &&& 0xE001#16) ∧
    (mmc3Board.params.board = .mmc3 ∧ 0x0000#16 &&& 0xE001#16 = 0x1FFE#16 &&& 0xE001#16) ∧
    (simpleBoard.params.board = .simple ∧ (0x8000#16)[15] = (0xFFFF#16)[15]) ∧
    (simpleBoard.params.board = .simple ∧ (0x0000#16)[15] = (0x7FFF#16)[15]) := by decide

theorem witness_BankSelectWritesLatchAndFlags : mmc3Board.fault = none ∧ mmc3Board.params.board = .mmc3 := by decide

theorem witness_BankDataWritesTheSelectedRegister :
    (∀ k : Fin 6, (latched (BitVec.ofNat 32 k.val)).fault = none ∧
      (latched (BitVec.ofNat 32 k.val)).params.board = .mmc3 ∧
      (latched (BitVec.ofNat 32 k.val)).mmc3.latch = BitVec.ofNat 32 k.val) ∧
    ((latched 6).fault = none ∧ (latched 6).params.board = .mmc3 ∧ (latched 6).mmc3.latch = 6#32) ∧
    ((latched 7).fault = none ∧ (latched 7).params.board = .mmc3 ∧ (latched 7).mmc3.latch = 7#32) ∧
    ((latched 8).fault = none ∧ (latched 8).params.board = .mmc3 ∧ 7 < (latched 8).mmc3.latch.toNat) ∧
    ((latched (-1)).fault = none ∧ (latched (-1)).params.board = .mmc3 ∧ 7 < (latched (-1)).mmc3.latch.toNat) := by
  decide +kernel

theorem witness_MirroringWriteHonoursTheWiring :
    (mmc3Board.fault = none ∧ mmc3Board.params.board = .mmc3 ∧ mmc3Board.params.wired ≠ .full) ∧
    ((mmc3With fun p => { p with wired := .full }).fault = none ∧
      (mmc3With fun p => { p with wired := .full }).params.board = .mmc3 ∧
      (mmc3With fun p => { p with wired := .full }).params.wired = .full) := by decide

theorem witness_WritesWithoutATargetHaveNoEffect :
    mmc3Board.fault = none ∧ 0x7FFF#16 < 0x8000#16 ∧
    (mmc3With fun p => { p with slotMap := noneMap }).fault = none ∧
    (mmc3With fun p => { p with slotMap := noneMap }).params.board = .mmc3 ∧
    slotAt (mmc3With fun p => { p with slotMap := noneMap }).params.slotMap 0xFFFF#16 = .none := by decide

theorem witness_IrqReloadZeroesTheCounter :
    (mmc3Board.fault = none ∧ mmc3Board.params.board = .mmc3 ∧ mmc3Board.params.altIrq = false) ∧
    ((mmc3With fun p => { p with altIrq := true }).fault = none ∧
      (mmc3With fun p => { p with altIrq := true }).params.board = .mmc3 ∧
      (mmc3With fun p => { p with altIrq := true }).params.altIrq = true) := by decide

theorem witness_IrqClearZeroesTheCounter :
    (mmc3Board.fault = none ∧ mmc3Board.params.board = .mmc3 ∧ mmc3Board.params.altIrq = false) ∧
    ((mmc3With fun p => { p with altIrq := true }).fault = none ∧
      (mmc3With fun p => { p with altIrq := true }).params.board = .mmc3 ∧
      (mmc3With fun p => { p with altIrq := true }).params.altIrq = true) := by decide

theorem witness_IrqDisableAcknowledges :
    { mmc3Board with irqBoard := true }.fault = none ∧ { mmc3Board with irqBoard := true }.params.board = .mmc3 := by
  decide

theorem witness_IrqEnableOnlySetsTheFlag :
    { mmc3Board with irqBoard := true }.fault = none ∧ { mmc3Board with irqBoard := true }.params.board = .mmc3 := by
  decide

theorem witness_SimpleWriteSetsBothBanks : simpleBoard.fault = none ∧ simpleBoard.params.board = .simple := by decide

theorem witness_OtherVariantsWritesAreNoOps :
    (simpleBoard.fault = none ∧ simpleBoard.params.board = .simple) ∧
    (mmc3Board.fault = none ∧ mmc3Board.params.board = .mmc3) := by decide

theorem witness_CpuReadFollowsTheClosedForm :
    (Inv mmc3Board ∧ mmc3Board.fault = none ∧ (0x8000#16)[15] = true) ∧
    (Inv simpleBoard ∧ simpleBoard.fault = none ∧ (0xFFFF#16)[15] = true) :=
  ⟨⟨mmc3Board_inv, rfl, rfl⟩, simpleBoard_inv, rfl, rfl⟩

theorem witness_CpuReadBelow8000ReturnsOpenBus :
    mmc3Board.fault = none ∧ simpleBoard.fault = none ∧ 0x0000#16 < 0x8000#16 ∧ 0x7FFF#16 < 0x8000#16 := by decide

theorem witness_PpuReadFollowsTheClosedForm :
    (Inv mmc3Board ∧ mmc3Board.fault = none ∧ 0x0000#14 < 0x2000#14) ∧
    (Inv simpleBoard ∧ simpleBoard.fault = none ∧ 0x1FFF#14 < 0x2000#14) :=
  ⟨⟨mmc3Board_inv, rfl, by decide⟩, simpleBoard_inv, rfl, by decide⟩

theorem witness_UnservedPpuReadReturnsNothing : mmc3Board.fault = none := rfl

theorem witness_PpuWriteStoresOneChrRamByte :
    (Inv ramBoard ∧ ramBoard.fault = none ∧ 0x1FFF#14 < 0x2000#14 ∧ ramBoard.params.chrIsRam = true) ∧
    (Inv mmc3Board ∧ mmc3Board.fault = none ∧ 0x0000#14 < 0x2000#14 ∧ mmc3Board.params.chrIsRam = false) :=
  ⟨⟨ramBoard_inv, rfl, by decide, rfl⟩, mmc3Board_inv, rfl, by decide, rfl⟩

/-- Boards no run of an accepted construction reaches: a window past the end of its image, at the first offset outside. -/
def strayWindow (space : Space) (base : Nat) (unit : BankUnit) (index : Nat) : Window :=
  { space := space, base := base, unit := unit, index := index }

theorem witness_AccessPastTheImageRaisesOutOfBounds :
    ({ mmc3Board with windows := [strayWindow .prg 0x8000 .k8 32] }.fault = none ∧
      lookup { mmc3Board with windows := [strayWindow .prg 0x8000 .k8 32] }.windows .prg (0x8000#16).toNat =
        some (strayWindow .prg 0x8000 .k8 32) ∧
      mmc3Board.params.prgSize ≤
        (strayWindow .prg 0x8000 .k8 32).index * (strayWindow .prg 0x8000 .k8 32).unit.bytes +
          ((0x8000#16).toNat - (strayWindow .prg 0x8000 .k8 32).base)) ∧
    ({ mmc3Board with windows := [strayWindow .chr 0x1C00 .k1 128] }.fault = none ∧
      lookup { mmc3Board with windows := [strayWindow .chr 0x1C00 .k1 128] }.windows .chr (0x1FFF#14).toNat =
        some (strayWindow .chr 0x1C00 .k1 128) ∧
      mmc3Board.params.chrSize ≤
        (strayWindow .chr 0x1C00 .k1 128).index * (strayWindow .chr 0x1C00 .k1 128).unit.bytes +
          ((0x1FFF#14).toNat - (strayWindow .chr 0x1C00 .k1 128).base)) := by decide +kernel

theorem witness_EdgeCountsAssertsAndConsumes : mmc3Board.fault = none ∧ mmc3Board.params.board = .mmc3 := by decide

theorem witness_SimpleBoardHasNoInterrupt :
    simpleBoard.params.board = .simple ∧ simpleBoard.fault = none ∧
    { simpleBoard with irqBoard := true }.params.board = .simple ∧
    see { simpleBoard with irqBoard := true } .save (·.irqBoard) = some true := by decide +kernel

/-- An MMC3 board whose timer is one edge from firing. -/
def armed : State := { mmc3Board with mmc3 := { mmc3Board.mmc3 with irqCounter := 1, irqEnabled := true } }

theorem witness_TimerPhasesFollowTheTable :
    armed.params.board = .mmc3 ∧ timerPhase armed = .armed ∧ see armed .a12 timerPhase = some .fired ∧
    see armed (.cw 0xE000#16 0) timerPhase = some .idle ∧ see armed (.cw 0xE001#16 0) timerPhase = some .armed ∧
    see armed (.cw 0xC000#16 0) timerPhase = some .armed ∧ see armed (.cw 0xC001#16 0) timerPhase = some .armed ∧
    see armed .ack timerPhase = some .armed ∧ see armed .reset timerPhase = some .idle := by decide +kernel

theorem witness_InterruptIsSetOnlyByAnEdge :
    armed.irqBoard = false ∧ see armed .a12 (·.irqBoard) = some true := by decide +kernel

theorem witness_InterruptIsClearedOnlyByAcknowledge :
    { armed with irqBoard := true }.irqBoard = true ∧ see { armed with irqBoard := true } .ack (·.irqBoard) = some false ∧
    see { armed with irqBoard := true } .reset (·.irqBoard) = some false ∧
    see { armed with irqBoard := true } (.cw 0xE000#16 0) (·.irqBoard) = some false := by decide +kernel

theorem witness_AckClearsTheInterruptBit : { armed with irqBoard := true }.fault = none := rfl

theorem witness_DetectorDeliversFilteredEdges :
    { mmc3Board with pending := [.ppuAddress 0x1000#14] }.fault = none ∧
    { mmc3Board with pending := [.ppuAddress 0x1000#14] }.pending = .ppuAddress 0x1000#14 :: [] ∧
    ((0x1000#14)[12] = true ∧ mmc3Board.detector.a12Prev = false ∧
      mmc3Board.params.a12Filter ≤ mmc3Board.detector.lowRun) ∧
    { mmc3Board with pending := [.ppuAddress 0x0FFF#14] }.pending = .ppuAddress 0x0FFF#14 :: [] ∧
    (0x0FFF#14)[12] = false := by decide

theorem witness_HardResetOfMmc3 : armed.fault = none ∧ armed.params.board = .mmc3 := by decide

theorem witness_HardResetOfSimple : simpleBoard.fault = none ∧ simpleBoard.params.board = .simple := by decide

theorem witness_HardResetIsIdempotent : exec .reset armed = .next mmc3Board := by
  have h : hardReset armed = mmc3Board := by decide +kernel
  exact congrArg _ h

theorem witness_ConstructionChecksSizesAndResets :
    (¬∃ k, 40960 = 8192 * 2 ^ k) ∧ (¬∃ k, 8192 = 16384 * 2 ^ k) ∧ (¬∃ k, 12288 = 8192 * 2 ^ k) ∧
    (∃ k, defaultParams.prgSize = 8192 * 2 ^ k) ∧ (∃ k, defaultParams.chrSize = 8192 * 2 ^ k) ∧
    ((∃ k, simpleParams.prgSize = 16384 * 2 ^ k) ∧ ∃ k, simpleParams.chrSize = 8192 * 2 ^ k) := by
  refine ⟨fun h => ?_, fun h => ?_, fun h => ?_, ⟨5, by decide⟩, ⟨4, by decide⟩, ⟨3, by decide⟩, 2, by decide⟩
  · exact absurd ((unitTimesPowerOfTwo_iff (by decide) _).2 h) (by decide)
  · exact absurd ((unitTimesPowerOfTwo_iff (by decide) _).2 h) (by decide)
  · exact absurd ((unitTimesPowerOfTwo_iff (by decide) _).2 h) (by decide)

theorem witness_SaveAppendsTheMmc3Layout : armed.fault = none ∧ armed.params.board = .mmc3 := by decide

theorem witness_SaveAppendsTheSimpleLayout : simpleBoard.fault = none ∧ simpleBoard.params.board = .simple := by decide

theorem witness_LoadReadsTheMmc3Layout :
    mmc3Board.fault = none ∧ mmc3Board.params.board = .mmc3 ∧ 54 ≤ c1.length ∧ 54 ≤ (c1 ++ [7]).length := by decide

theorem witness_LoadReadsTheSimpleLayout :
    simpleBoard.fault = none ∧ simpleBoard.params.board = .simple ∧ 8 ≤ (c1.take 8).length ∧ 8 ≤ c1.length := by decide

theorem witness_ShortLoadRaisesUnderrun :
    (mmc3Board.fault = none ∧ mmc3Board.params.board = .mmc3 ∧ (c1.take 53).length < 54) ∧
    (simpleBoard.fault = none ∧ simpleBoard.params.board = .simple ∧ (c1.take 7).length < 8) := by decide

/-- Program P5's board A: other registers, other mirroring. -/
def savedBoard : State :=
  withRegs mmc3Board { mmc3Board.mmc3 with
    flagP := true, latch := 2, chr := #v[0x11, 0, 0x20, 0, 0, 0], prg := #v[5, 6, 30, 31] }

theorem savedBoard_inv : Inv savedBoard where
  sizes := mmc3Board_inv.sizes
  lists := mmc3Board_inv.lists
  windows := rfl
  ram := mmc3Board_inv.ram
  romHasNoRam := mmc3Board_inv.romHasNoRam
  fixedMode := mmc3Board_inv.fixedMode
  quiet := mmc3Board_inv.quiet
  noSimple := mmc3Board_inv.noSimple
  noMmc3 := by decide
  inBounds := mmc3Board_inv.inBounds

/-- The MMC3 board wired to Horizontal: the same cartridge but for the wiring. -/
def rewired : State :=
  { mmc3With (fun p => { p with wired := .horizontal }) with mirroring := .horizontal }

theorem rewired_inv : Inv rewired where
  sizes := ⟨mmc3Board_inv.sizes.prg, mmc3Board_inv.sizes.chr⟩
  lists := ⟨mmc3Board_inv.lists.prg, mmc3Board_inv.lists.chrRom, mmc3Board_inv.lists.chrInit⟩
  windows := by decide +kernel
  ram := mmc3Board_inv.ram
  romHasNoRam := mmc3Board_inv.romHasNoRam
  fixedMode := by decide
  quiet := by decide
  noSimple := by decide
  noMmc3 := by decide
  inBounds := mmc3Board_inv.inBounds

theorem witness_SaveLoadReproducesTheBoard :
    Inv savedBoard ∧ Inv rewired ∧ savedBoard.fault = none ∧ rewired.fault = none ∧
    savedBoard.params.board = rewired.params.board ∧ savedBoard.params.prgSize = rewired.params.prgSize ∧
    savedBoard.params.chrSize = rewired.params.chrSize ∧ SameCartridge savedBoard.params rewired.params ∧
    savedBoard.mmc3 ≠ rewired.mmc3 ∧ savedBoard.params.wired ≠ rewired.params.wired :=
  ⟨savedBoard_inv, rewired_inv, rfl, rfl, rfl, rfl, rfl, ⟨rfl, rfl, rfl, rfl, rfl, rfl, rfl, rfl⟩, by decide, by decide⟩

theorem witness_BoardsOfOnePersistedStateStayAlike :
    SamePersisted mmc3Board { rewired with irqBoard := true } ∧ mmc3Board ≠ { rewired with irqBoard := true } ∧
    ((∃ a, Instr.crPrg 0x8000#16 = .crPrg a) ∧ (∃ a, Instr.prChr 0x1FFF#14 = .prChr a) ∧
      mmc3Board.params.chrIsRam = false) :=
  ⟨⟨⟨rfl, rfl, rfl, rfl, rfl, rfl, rfl, rfl⟩, rfl, rfl, rfl, rfl⟩, by decide +kernel, ⟨_, rfl⟩, ⟨_, rfl⟩, rfl⟩

theorem witness_FaultedBoardHasNoStep :
    { mmc3Board with fault := some (.codecUnderrun 54 53) }.fault = some (.codecUnderrun 54 53) := rfl

theorem witness_EveryOperationCompletes :
    mmc3Board.fault = none ∧ Inv mmc3Board ∧ WellFormed mmc3Board.params (.crPrg 0xFFFF#16) ∧
    (∀ b, Instr.crPrg 0xFFFF#16 = .load b → layoutSize mmc3Board.params.board ≤ b.length) ∧
    WellFormed mmc3Board.params (.load c1) ∧
    ∀ b, Instr.load c1 = .load b → layoutSize mmc3Board.params.board ≤ b.length := by
  refine ⟨rfl, mmc3Board_inv, by decide, (fun b h => by cases h), by decide, fun b h => ?_⟩
  cases h
  decide

/-- After each operation that sets the windows, on its own board, no fault is recorded. -/
theorem witness_WindowsFollowTheRegisters :
    (mmc3Board.params.board = .mmc3 ∧ see mmc3Board (.cw 0x8000#16 0xC7) (·.fault) = some none ∧
      see mmc3Board (.cw 0x8001#16 0xFF) (·.fault) = some none ∧ see mmc3Board .reset (·.fault) = some none ∧
      see mmc3Board (.load c1) (·.fault) = some none) ∧
    (simpleBoard.params.board = .simple ∧ see simpleBoard (.cw 0x8000#16 0x17) (·.fault) = some none) := by
  decide +kernel

theorem witness_WindowsNeverLeaveTheImage :
    (SizesOk defaultParams ∧
      assign defaultParams .prg 0xE000 .k8 31 ∈ windowTable defaultParams State.reset.mmc3 State.reset.simple ∧
      (assign defaultParams .prg 0xE000 .k8 31).covers .prg 0xFFFF = true) ∧
    (SizesOk simpleParams ∧ simpleBoard.windows = windowTable simpleParams simpleBoard.mmc3 simpleBoard.simple ∧
      ∃ w ∈ simpleBoard.windows, w.covers .chr 0 = true) :=
  ⟨⟨⟨⟨5, by decide⟩, 4, by decide⟩, by decide +kernel, by decide⟩, simpleBoard_inv.sizes, by decide +kernel, by decide +kernel⟩

theorem witness_ChrLayoutsMirrorEachOther :
    SizesOk mmc3Board.params ∧ mmc3Board.params.board = .mmc3 ∧ 0x0000#14 < 0x2000#14 ∧ 0x1FFF#14 < 0x2000#14 :=
  ⟨mmc3Board_inv.sizes, rfl, by decide, by decide⟩

theorem witness_NewBankIsSeenByTheNextRead :
    (SizesOk mmc3Board.params ∧ mmc3Board.fault = none ∧ mmc3Board.params.board = .mmc3 ∧
      (∃ a d, Instr.bankSelect 0x9FFE#16 0xC7 = .bankSelect a d ∨ Instr.bankSelect 0x9FFE#16 0xC7 = .bankData a d)) ∧
    (SizesOk (latched 8).params ∧ (latched 8).fault = none ∧ (latched 8).params.board = .mmc3 ∧
      (∃ a d, Instr.bankData 0x8001#16 0xFF = .bankSelect a d ∨ Instr.bankData 0x8001#16 0xFF = .bankData a d)) ∧
    (SizesOk simpleBoard.params ∧ simpleBoard.fault = none ∧ simpleBoard.params.board = .simple ∧
      ∃ a d, Instr.simpleWrite 0x8000#16 0xFF = .simpleWrite a d) ∧
    (0x8000#16)[15] = true ∧ (0xFFFF#16)[15] = true ∧ 0x0000#14 < 0x2000#14 ∧ 0x1FFF#14 < 0x2000#14 :=
  ⟨⟨mmc3Board_inv.sizes, rfl, rfl, _, _, .inl rfl⟩, ⟨mmc3Board_inv.sizes, rfl, rfl, _, _, .inr rfl⟩,
    ⟨simpleBoard_inv.sizes, rfl, rfl, _, _, rfl⟩, rfl, rfl, by decide, by decide⟩

theorem witness_BankWrittenIsTheBankRead :
    (SizesOk (latched 6).params ∧ (latched 6).fault = none ∧ (latched 6).params.board = .mmc3 ∧
      (latched 6).mmc3.latch = 6#32 ∧ (latched 6).mmc3.flagP = false ∧
      (0x8000 ≤ (0x8000#16).toNat ∧ (0x8000#16).toNat < 0xA000) ∧
      (0x8000 ≤ (0x9FFF#16).toNat ∧ (0x9FFF#16).toNat < 0xA000)) ∧
    (SizesOk simpleBoard.params ∧ simpleBoard.fault = none ∧ simpleBoard.params.board = .simple ∧
      (0x8000 ≤ (0xBFFF#16).toNat ∧ (0xBFFF#16).toNat < 0xC000) ∧ 0x1FFF#14 < 0x2000#14) :=
  ⟨⟨mmc3Board_inv.sizes, rfl, rfl, rfl, rfl, by decide, by decide⟩, simpleBoard_inv.sizes, rfl, rfl, by decide, by decide⟩

theorem witness_Mmc3HighWindowReadsTheLastBank :
    Inv mmc3Board ∧ mmc3Board.fault = none ∧ mmc3Board.params.board = .mmc3 ∧
    mmc3Board.params.prgSize ≤ 8192 * 2 ^ 32 ∧
    mmc3Board.mmc3.prg[3] = BitVec.ofNat 32 (mmc3Board.params.prgSize / 8192) - 1#32 ∧
    0xE000 ≤ (0xE000#16).toNat ∧ 0xE000 ≤ (0xFFFF#16).toNat :=
  ⟨mmc3Board_inv, rfl, rfl, by decide, by decide, by decide, by decide⟩

theorem witness_SimpleHighSlotIsFixed :
    Inv simpleBoard ∧ simpleBoard.fault = none ∧ simpleBoard.params.board = .simple ∧
    0xC000 ≤ (0xC000#16).toNat ∧ 0xC000 ≤ (0xFFFF#16).toNat :=
  ⟨simpleBoard_inv, rfl, rfl, by decide, by decide⟩

theorem witness_ConstructedBoardMeetsTheInvariant :
    ListsOk defaultParams ∧ construct defaultParams = .next State.reset :=
  ⟨⟨⟨by decide, by decide⟩, ⟨by decide, by decide⟩, ⟨by decide, by decide⟩⟩, construct_defaultParams⟩

theorem witness_StepKeepsTheInvariant : Inv mmc3Board ∧ step mmc3Board = .next mmc3Board :=
  ⟨mmc3Board_inv, rfl⟩

theorem witness_ParametersAreConstant :
    step mmc3Board = .next mmc3Board ∧ construct defaultParams = .next State.reset :=
  ⟨rfl, construct_defaultParams⟩

theorem witness_FixedPrgRegistersAreNotReprogrammed :
    exec .ack mmc3Board = .next mmc3Board ∧ Instr.ack ≠ .reset ∧ ∀ b, Instr.ack ≠ .load b :=
  ⟨rfl, by decide, fun _ h => by cases h⟩

/-- Under `ALT_IRQ` a clear write changes the pending flag. -/
theorem witness_HiddenTimerRegistersHaveFewWriters :
    see (mmc3With fun p => { p with altIrq := true }) (.cw 0xC001#16 0) (·.mmc3.irqClearPending) = some true ∧
    (mmc3With fun p => { p with altIrq := true }).mmc3.irqClearPending = false ∧
    Instr.irqClear 0xC001#16 0 ≠ .reset ∧ (∀ b, Instr.irqClear 0xC001#16 0 ≠ .load b) ∧
    Instr.irqClear 0xC001#16 0 ≠ .a12 :=
  ⟨by decide +kernel, rfl, by decide, fun _ h => (by cases h), by decide⟩

theorem witness_MirroringHasTwoWriters :
    see mmc3Board (.cw 0xA000#16 1) (·.mirroring) = some .horizontal ∧ mmc3Board.mirroring ≠ .horizontal ∧
    see { mmc3Board with mirroring := .horizontal } .reset (·.mirroring) = some .vertical := by decide +kernel

theorem witness_SimpleMirroringIsWired : Inv simpleBoard ∧ simpleBoard.params.board = .simple :=
  ⟨simpleBoard_inv, rfl⟩

theorem witness_OnlyPpuWritesChangeMemory :
    exec .ack mmc3Board = .next mmc3Board ∧ mmc3Board.params.chrIsRam = false ∧
    exec .ack ramBoard = .next ramBoard ∧ ∀ a d, Instr.ack ≠ .pwChr a d :=
  ⟨rfl, rfl, rfl, fun _ _ h => by cases h⟩

theorem witness_ReadsHaveNoSideEffects :
    see mmc3Board (.cr 0xFFFC#16) (·.fault) = some none ∧ see mmc3Board (.cr 0x6000#16) (·.fault) = some none ∧
    see mmc3Board (.pr 0x0010#16) (·.fault) = some none ∧ see mmc3Board (.pr 0x2000#16) (·.fault) = some none := by
  decide +kernel

theorem witness_WritesAreIdempotent :
    see ramBoard (.pw 0x0010#16 0xAA) (·.fault) = some none ∧ see mmc3Board (.cw 0x8001#16 5) (·.fault) = some none ∧
    see simpleBoard (.cw 0x8000#16 5) (·.fault) = some none := by decide +kernel

end Sys2Proof.Tests
end

/-!
PROOF. The construction parameters are constant (spec/00_scope.md R8): every way an instruction can move the board keeps
them, so every step does, and a construction stores the ones it is given.
-/

namespace Sys2Proof.Machine

variable {s t : State}

/-! ### The shared operations -/

@[simp] theorem hardReset_params (s : State) : (hardReset s).params = s.params := by
  rw [hardReset_frame]

@[simp] theorem loadRegs_params (b : List Byte) (s : State) : (loadRegs b s).params = s.params := by
  rw [loadRegs_frame]

/-! ### Every instruction -/

/-- No move of the board changes a parameter: only the hard reset and the state read call for a lemma, the other
moves name the fields they write. -/
theorem Effect.params_eq {i : Instr} (e : Effect i s t) : t.params = s.params := by
  cases e with
  | reset => exact hardReset_params s
  | load b => exact loadRegs_params b s
  | _ => rfl

theorem exec_params {i : Instr} (h : exec i s = .next t) : t.params = s.params :=
  (exec_effect h).2.params_eq

/-! ### Every step -/

/-- What an address sample that answers a next state did: the detector moved on, and either that is all, or an `A12` edge
ran on the board it left. -/
theorem sampleAddress_cases {a : PpuAddr} (h : sampleAddress a s = .next t) :
    s.fault = none ∧
      ((detectorDelivers s.params.a12Filter s.detector a = true ∧
          exec .a12 { s with detector := detectorNext s.detector a } = .next t) ∨
        (detectorDelivers s.params.a12Filter s.detector a = false ∧
          t = { s with detector := detectorNext s.detector a })) := by
  obtain ⟨hf, h⟩ := running_eq_next.1 h
  refine ⟨hf, ?_⟩
  cases hd : detectorDelivers s.params.a12Filter s.detector a
  · exact .inr ⟨rfl, by simpa [hd, eq_comm] using h⟩
  · exact .inl ⟨rfl, by simpa [hd] using h⟩

theorem sampleAddress_params {a : PpuAddr} (h : sampleAddress a s = .next t) : t.params = s.params := by
  obtain ⟨-, ⟨-, edge⟩ | ⟨-, rfl⟩⟩ := sampleAddress_cases h
  · exact (exec_params edge).trans rfl
  · rfl

theorem step_params (h : step s = .next t) : t.params = s.params := by
  rcases step_cases s with ⟨-, e⟩ | ⟨o, rest, -, e⟩ | ⟨a, rest, -, e⟩ <;> rw [e] at h
  · obtain ⟨-, rfl⟩ := (running_next_eq_next (f := id)).1 h
    rfl
  · exact (exec_params h).trans (State.putPending_params ..)
  · exact (sampleAddress_params h).trans (State.putPending_params ..)

/-! ### Construction -/

/-- A construction that is not refused gives the board after a hard reset, on the sizes it accepts. -/
theorem construct_eq_next {p : Params} :
    construct p = .next s ↔
      unitTimesPowerOfTwo (prgUnit p.board) p.prgSize = true ∧ unitTimesPowerOfTwo 8192 p.chrSize = true ∧
        s = hardReset (unreset p) := by
  cases hp : unitTimesPowerOfTwo (prgUnit p.board) p.prgSize <;>
    cases hc : unitTimesPowerOfTwo 8192 p.chrSize <;> simp [construct, hp, hc, eq_comm]

theorem construct_params {p : Params} (h : construct p = .next s) : s.params = p := by
  obtain ⟨-, -, rfl⟩ := construct_eq_next.1 h
  exact hardReset_params (unreset p)

/-- Settles O52: each step is an instruction or an address sample, and neither writes the parameters. -/
theorem parametersAreConstant : Obligations.ParametersAreConstant :=
  ⟨fun _ _ => step_params, fun _ _ => construct_params⟩

end Sys2Proof.Machine

/-!
PROOF. The MMC3 registers (spec/43_mmc3_registers.md): the interrupt writes (R165 to R168), and the window table every
write of a bank register, hard reset and state read leaves (R171).
-/

namespace Sys2Proof.Machine

variable {s t : State}

/-! ### The interrupt writes -/

/-- Under `ALT_IRQ` the clear is requested, else the pending flag is kept (R165, R166). -/
theorem zeroCounter_eq (altIrq : Bool) (r : Mmc3Regs) :
    zeroCounter altIrq r =
      { r with irqCounter := 0, irqClearPending := if altIrq then true else r.irqClearPending } := by
  cases altIrq <;> rfl

/-- An edge reloads a zero counter, in either revision (spec/44_irq_timer.md R201). -/
theorem irqEdge_irqCounter_of_zero (h : s.mmc3.irqCounter = 0) : (irqEdge s).mmc3.irqCounter = s.mmc3.irqReload := by
  simp [irqEdge, edgeConsume, edgeCount, h]

/-- Settles O10: the write zeroes the counter, and an edge reloads a zero counter. -/
theorem irqReloadZeroesTheCounter : Obligations.IrqReloadZeroesTheCounter := by
  intro a d s hf hb t
  refine ⟨(exec_irqReload a d).2 ⟨hf, ?_⟩, irqEdge t, exec_a12.2 ⟨hf, (if_pos hb).symm⟩, ?_⟩
  · rw [if_pos hb, zeroCounter_eq]
  · exact irqEdge_irqCounter_of_zero rfl

/-- Settles O12: on MMC3 the write is its own arm of `exec`. -/
theorem irqDisableAcknowledges : Obligations.IrqDisableAcknowledges :=
  fun a d _ hf hb => (exec_irqDisable a d).2 ⟨hf, (if_pos hb).symm⟩

/-- Settles O13: on MMC3 the write is its own arm of `exec`. -/
theorem irqEnableOnlySetsTheFlag : Obligations.IrqEnableOnlySetsTheFlag :=
  fun a d _ hf hb => (exec_irqEnable a d).2 ⟨hf, (if_pos hb).symm⟩

/-! ### The window table -/

/-- The window table is the one the registers give (R30, R171). -/
def State.WindowsFollow (s : State) : Prop := s.windows = windowTable s.params s.mmc3 s.simple

theorem State.recompute_windowsFollow (s : State) : s.recompute.WindowsFollow := rfl

/-- Recompute reads none of the windows it writes (R171). -/
@[simp] theorem State.recompute_recompute (s : State) : s.recompute.recompute = s.recompute := rfl

theorem windowTable_mmc3 {p : Params} (h : p.board = .mmc3) (r : Mmc3Regs) (q : SimpleRegs) :
    windowTable p r q = mmc3ChrWindows p r ++ mmc3PrgWindows p r := by
  simp [windowTable, h]

theorem hardReset_windowsFollow (s : State) : (hardReset s).WindowsFollow := by
  rw [State.WindowsFollow, hardReset_params]
  exact congrArg State.windows (hardReset_frame s)

/-- A state read that leaves no fault was long enough, so it recomputed the windows. -/
theorem loadStream_windowsFollow {b : List Byte} (h : (loadStream b s).fault = none) :
    (loadStream b s).WindowsFollow := by
  rcases loadStream_cases b s with ⟨-, short⟩ | ⟨-, enough⟩
  · rw [short, State.raise_fault] at h
    cases h
  · rw [enough]
    exact State.recompute_windowsFollow (loadRegs b s)

/-- A register write that ends in Recompute on its own board leaves the windows of the registers it wrote. -/
theorem windowsFollow_of_eq_ite {c : Prop} [Decidable c] {u : State} (hc : c)
    (h : t = if c then u.recompute else s) : t.WindowsFollow := by
  rw [h, if_pos hc]
  exact u.recompute_windowsFollow

/-- Settles O42: each of the five operations ends in Recompute, and Recompute reads the registers alone. -/
theorem windowsFollowTheRegisters : Obligations.WindowsFollowTheRegisters := by
  refine ⟨?_, fun s => ⟨fun hb => windowTable_mmc3 hb s.mmc3 s.simple, rfl, s.recompute_recompute⟩⟩
  rintro s t i h hf (⟨hb, a, d, rfl | rfl⟩ | ⟨hb, a, d, rfl⟩ | rfl | ⟨b, rfl⟩)
  · exact windowsFollow_of_eq_ite hb ((exec_bankSelect a d).1 h).2
  · exact windowsFollow_of_eq_ite hb ((exec_bankData a d).1 h).2
  · exact windowsFollow_of_eq_ite hb ((exec_simpleWrite a d).1 h).2
  · obtain ⟨-, rfl⟩ := exec_reset.1 h
    exact hardReset_windowsFollow s
  · obtain ⟨-, rfl⟩ := (exec_load b).1 h
    exact loadStream_windowsFollow hf

end Sys2Proof.Machine


/-!
PROOF. The scanline timer (spec/44_irq_timer.md): what an edge does on MMC3 (R201 to R204), that nothing but an edge on MMC3
sets the interrupt bit, and that SIMPLE has no interrupt (R209, spec/45_simple_switcher.md R234).
-/

namespace Sys2Proof.Machine

variable {s t : State}

/-! ### The edge on MMC3 -/

/-- Zero extension keeps 0 and nonzero apart: the prior counter is 0 only where the counter was. -/
theorem zext32_eq_zero_iff {d : Byte} : zext32 d = 0#32 ↔ d = 0#8 := by
  rw [← BitVec.toNat_inj, BitVec.toNat_setWidth_of_le (by decide), ← BitVec.toNat_inj]
  rfl

/-- Step 2 of the edge sees the counter before the edge as step 1's prior counter, and the counter after it (R202). -/
theorem edgeAsserts_edgeCount_iff (altIrq : Bool) (r : Mmc3Regs) :
    edgeAsserts altIrq (edgeCount r) = true ↔
      (altIrq = false ∨ r.irqCounter ≠ 0 ∨ r.irqClearPending = true) ∧
        (edgeCount r).irqCounter = 0 ∧ r.irqEnabled = true := by
  have prior : (edgeCount r).priorIrqCounter = 0#32 ↔ r.irqCounter = 0#8 := zext32_eq_zero_iff
  have pending : (edgeCount r).irqClearPending = r.irqClearPending := rfl
  have enabled : (edgeCount r).irqEnabled = r.irqEnabled := rfl
  simp [edgeAsserts, prior, pending, enabled, or_assoc, and_assoc]

theorem irqEdge_frame (s : State) :
    irqEdge s = { s with mmc3 := edgeConsume (edgeCount s.mmc3), irqBoard := (irqEdge s).irqBoard } := rfl

/-- An edge sets the interrupt bit where it asserts, and never clears it (R202, R204). -/
theorem irqEdge_irqBoard (s : State) :
    (irqEdge s).irqBoard = if edgeAsserts s.params.altIrq (edgeCount s.mmc3) = true then true else s.irqBoard := by
  simp [irqEdge, Bool.or_comm]

/-- Settles O22: steps 1 and 3 of the edge write the registers named, and step 2 asserts where the statement says. -/
theorem edgeCountsAssertsAndConsumes : Obligations.EdgeCountsAssertsAndConsumes := by
  intro s hf hb r counter
  refine exec_a12.2 ⟨hf, ?_⟩
  rw [if_pos hb, irqEdge_frame, irqEdge_irqBoard]
  simp only [edgeAsserts_edgeCount_iff]
  rfl

/-! ### Who sets the interrupt bit -/

@[simp] theorem hardReset_irqBoard (s : State) : (hardReset s).irqBoard = false := by
  rw [hardReset_frame]

@[simp] theorem loadRegs_irqBoard (b : List Byte) (s : State) : (loadRegs b s).irqBoard = s.irqBoard := by
  rw [loadRegs_frame]

/-- A set bit was set before, or the move is an edge on MMC3: a hard reset and a disable clear the bit, and every other move
keeps it. -/
theorem Effect.irqBoard_of_set {i : Instr} (e : Effect i s t) (set : t.irqBoard = true) :
    s.irqBoard = true ∨ (i = .a12 ∧ s.params.board = .mmc3 ∧ t = irqEdge s) := by
  cases e with
  | a12 _ board => exact .inr ⟨rfl, board, rfl⟩
  | reset => simp at set
  | irqDisable => cases set
  | ack => cases set
  | load b => exact .inl (loadRegs_irqBoard b s ▸ set)
  | _ => exact .inl set

/-! ### SIMPLE has no interrupt -/

/-- An edge on SIMPLE has no effect (R209). -/
theorem exec_a12_simple (hf : s.fault = none) (hb : s.params.board = .simple) : exec .a12 s = .next s :=
  exec_a12.2 ⟨hf, by simp [hb]⟩

/-- Settles O23: the bit is set only by an edge on MMC3 (`Effect.irqBoard_of_set`), which SIMPLE does not have. -/
theorem simpleBoardHasNoInterrupt : Obligations.SimpleBoardHasNoInterrupt := by
  intro s hb
  refine ⟨fun hf => ⟨exec_a12_simple hf hb, hardReset s, exec_reset.2 ⟨hf, rfl⟩, hardReset_irqBoard s⟩, ?_⟩
  intro i t h set
  rcases (exec_effect h).2.irqBoard_of_set set with before | ⟨-, mmc3, -⟩
  · exact before
  · rw [hb] at mmc3
    cases mmc3

end Sys2Proof.Machine

/-!
PROOF. The SIMPLE variant (spec/45_simple_switcher.md): the mirroring stays wired (R233), and the high PRG slot always maps
the last 16 KiB (R231).
-/

namespace Sys2Proof.Machine

variable {s t : State}

/-! ### The mirroring -/

@[simp] theorem hardReset_mirroring (s : State) : (hardReset s).mirroring = s.params.wired := by
  rw [hardReset_frame]

@[simp] theorem loadRegs_mirroring (b : List Byte) (s : State) : (loadRegs b s).mirroring = s.mirroring := by
  rw [loadRegs_frame]

/-- On SIMPLE a hard reset sets the wired mode, and every other move keeps the mode: the one write of it is MMC3's. -/
theorem Effect.mirroring_simple {i : Instr} (e : Effect i s t) (hb : s.params.board = .simple)
    (wired : s.mirroring = s.params.wired) : t.mirroring = s.params.wired := by
  cases e with
  | mirroring a d _ board =>
    rw [hb] at board
    cases board
  | reset => exact hardReset_mirroring s
  | load b => exact (loadRegs_mirroring b s).trans wired
  | _ => exact wired

/-- Settles O56: the invariant has the mode wired, and every move of a SIMPLE board leaves it so. -/
theorem simpleMirroringIsWired : Obligations.SimpleMirroringIsWired := by
  intro s inv hb
  have wired := inv.fixedMode (.inl hb)
  exact ⟨wired, fun i t h => (exec_effect h).2.mirroring_simple hb wired⟩

/-! ### The window table after any operation -/

/-- The window table reads the two flags and the bank registers of MMC3, no interrupt register (R171 to R173). -/
theorem windowTable_congr_banks (p : Params) (q : SimpleRegs) {r r' : Mmc3Regs} (flagC : r.flagC = r'.flagC)
    (flagP : r.flagP = r'.flagP) (chr : r.chr = r'.chr) (prg : r.prg = r'.prg) :
    windowTable p r q = windowTable p r' q := by
  simp only [windowTable, mmc3ChrWindows, mmc3PrgWindows, flagC, flagP, chr, prg]

/-- Every move keeps the window table the one of the registers: the moves that write a bank register recompute it, and the
table reads no interrupt register. -/
theorem Effect.windowsFollow {i : Instr} (e : Effect i s t) (follow : s.WindowsFollow) : t.WindowsFollow := by
  cases e with
  | bankSelect | bankData | simpleWrite => exact State.recompute_windowsFollow _
  | irqReload | irqClear | irqDisable | irqEnable | a12 =>
    exact follow.trans (windowTable_congr_banks s.params s.simple rfl rfl rfl rfl)
  | reset => exact hardReset_windowsFollow s
  | load b => exact State.recompute_windowsFollow (loadRegs b s)
  | _ => exact follow

/-! ### The high PRG slot -/

theorem windowTable_simple {p : Params} (h : p.board = .simple) (r : Mmc3Regs) (q : SimpleRegs) :
    windowTable p r q = simpleWindows p q := by
  simp [windowTable, h]

/-- From $C000 up the SIMPLE windows lead to the constant one, whatever the bank registers hold (R231, R235). -/
theorem lookup_simpleWindows_high (p : Params) (q : SimpleRegs) {a : Nat} (lo : 0xC000 ≤ a) (hi : a < 0x10000) :
    lookup (simpleWindows p q) .prg a = some { space := .prg, base := 0xC000, unit := .k16, index := m16P p } := by
  have notLowWindow : ¬(assign p .prg 0x8000 .k16 q.prgBank).covers .prg a = true := by
    simp only [assign_covers_iff, BankUnit.bytes]
    omega
  rw [simpleWindows, lookup_cons_of_not_covers notLowWindow]
  refine lookup_cons_of_covers ?_
  simp only [covers_iff, BankUnit.bytes, true_and]
  omega

/-- The last bank of an accepted SIMPLE image is its last 16 KiB (R9). -/
theorem m16P_mul_add {p : Params} (hb : p.board = .simple) (sizes : SizesOk p) :
    m16P p * 16384 + 16384 = p.prgSize := by
  obtain ⟨k, hk⟩ := sizes.prg
  have pos : 0 < 2 ^ k := Nat.two_pow_pos k
  rw [hb, prgUnit] at hk
  rw [m16P]
  omega

/-- On SIMPLE an address from $C000 up goes to its place in the last 16 KiB, inside the image. -/
theorem windowOffset_simple_high (hb : s.params.board = .simple) (sizes : SizesOk s.params) (follow : s.WindowsFollow)
    {a : Nat} (lo : 0xC000 ≤ a) (hi : a < 0x10000) :
    windowOffset s .prg a = .ok (s.params.prgSize - 16384 + (a - 0xC000)) := by
  have last := m16P_mul_add hb sizes
  have start : m16P s.params * 16384 = s.params.prgSize - 16384 := Nat.eq_sub_of_add_eq last
  rw [windowOffset, follow, windowTable_simple hb, lookup_simpleWindows_high _ _ lo hi]
  simp only [windowTranslate_eq, imageSize, BankUnit.bytes, start]
  exact if_pos (by omega)

/-- A CPU read whose address has an offset returns the PRG byte there (R124, R141). -/
theorem exec_crPrg_of_offset {a : BusAddr} {o : Nat} (hf : s.fault = none) (h : windowOffset s .prg a.toNat = .ok o) :
    exec (.crPrg a) s = .next (s.putReadData (some (prgRom s.params o))) :=
  (exec_crPrg a).2 ⟨hf, by rw [windowReadPrg, h, finishRead]⟩

/-- On a SIMPLE board whose windows follow its registers, a read from $C000 up answers the byte of the last 16 KiB. -/
theorem exec_crPrg_simple_high {a : BusAddr} (hf : s.fault = none) (hb : s.params.board = .simple)
    (sizes : SizesOk s.params) (follow : s.WindowsFollow) (lo : 0xC000 ≤ a.toNat) :
    exec (.crPrg a) s =
      .next (s.putReadData (some (prgRom s.params (s.params.prgSize - 16384 + (a.toNat - 0xC000))))) :=
  exec_crPrg_of_offset hf (windowOffset_simple_high hb sizes follow lo a.isLt)

/-- Settles O48: every operation keeps the parameters and the windows those of the registers, so the read after it goes to
the same byte. -/
theorem simpleHighSlotIsFixed : Obligations.SimpleHighSlotIsFixed := by
  intro s a inv hf hb lo byte
  refine ⟨exec_crPrg_simple_high hf hb inv.sizes inv.windows lo, fun i t h htf => ?_⟩
  have params : t.params = s.params := exec_params h
  have follow : t.WindowsFollow := (exec_effect h).2.windowsFollow inv.windows
  have read := exec_crPrg_simple_high htf (params ▸ hb) (params ▸ inv.sizes) follow lo
  rwa [params] at read

end Sys2Proof.Machine

/-!
PROOF. The decoder and the encoder (spec/30_encoding.md): each undoes the other (R90 to R106), a write acts by its decode key
alone (R91, R100), and a step runs the decoded operation (spec/00_scope.md R7).
-/

namespace Sys2Proof.Machine

open Sys2Proof.Laws

variable {s : State}

/-! ### Decode of encode -/

theorem selectsSlot_iff {p : Params} {slot : Slot} {a : BusAddr} :
    selectsSlot p slot a = true ↔ p.board = .mmc3 ∧ a[15] = true ∧ slotAt p.slotMap a = slot := by
  simp [selectsSlot, and_assoc]

theorem decodeCpuWrite_low (p : Params) {a : BusAddr} (d : Byte) (h : a[15] = false) :
    decodeCpuWrite p a d = .cwUndecoded a d := by
  simp [decodeCpuWrite, h]

theorem decodeCpuWrite_mmc3 {p : Params} {a : BusAddr} (d : Byte) (hb : p.board = .mmc3) (h : a[15] = true) :
    decodeCpuWrite p a d = decodeSlot (slotAt p.slotMap a) a d := by
  simp [decodeCpuWrite, h, hb]

theorem decodeCpuWrite_simple {p : Params} {a : BusAddr} (d : Byte) (hb : p.board = .simple) (h : a[15] = true) :
    decodeCpuWrite p a d = .simpleWrite a d := by
  simp [decodeCpuWrite, h, hb]

/-- A write to an address that selects a slot decodes to the slot's instruction. -/
theorem decodeCpuWrite_of_selectsSlot {p : Params} {slot : Slot} {a : BusAddr} (d : Byte)
    (h : selectsSlot p slot a = true) : decodeCpuWrite p a d = decodeSlot slot a d := by
  obtain ⟨hb, h15, rfl⟩ := selectsSlot_iff.1 h
  exact decodeCpuWrite_mmc3 d hb h15

/-- Settles O3: a row's address conditions are those under which the decode chooses it, and a PPU address keeps its bits. -/
theorem decodeEncodeRoundTrip : Obligations.DecodeEncodeRoundTrip := by
  intro p i wf
  cases i with
  | bankSelect a d | bankData a d | mirroring a d | prgMode a d | irqReload a d | irqClear a d | irqDisable a d
  | irqEnable a d => exact decodeCpuWrite_of_selectsSlot d wf
  | simpleWrite a d =>
    obtain ⟨hb, h15⟩ : p.board = .simple ∧ a[15] = true := by simpa [WellFormed, wellFormed] using wf
    exact decodeCpuWrite_simple d hb h15
  | cwUndecoded a d =>
    obtain low | slot : a[15] = false ∨ selectsSlot p .none a = true := by simpa [WellFormed, wellFormed] using wf
    · exact decodeCpuWrite_low p d low
    · exact decodeCpuWrite_of_selectsSlot d slot
  | crPrg a | crOpenBus a =>
    simpa [WellFormed, wellFormed, encode, decode, decodeCpuRead] using wf
  | prChr a | prNotServed a =>
    simpa [WellFormed, wellFormed, encode, decode, ppuReduce_setWidth, decodePpuRead] using wf
  | pwChr a d | pwNotServed a d =>
    simpa [WellFormed, wellFormed, encode, decode, ppuReduce_setWidth, decodePpuWrite] using wf
  | a12 | reset | save | load bytes | ack => rfl

/-! ### Encode of decode -/

theorem encode_decodeSlot (slot : Slot) (a : BusAddr) (d : Byte) : encode (decodeSlot slot a d) = .cw a d := by
  cases slot <;> rfl

theorem encode_decodeCpuWrite (p : Params) (a : BusAddr) (d : Byte) : encode (decodeCpuWrite p a d) = .cw a d := by
  rcases decodeCpuWrite_cases p a d with ⟨-, e⟩ | ⟨-, -, e⟩ | ⟨-, -, e⟩ <;> rw [e]
  · rfl
  · exact encode_decodeSlot _ a d
  · rfl

theorem encode_decodeCpuRead (a : BusAddr) : encode (decodeCpuRead a) = .cr a := by
  unfold decodeCpuRead
  split <;> rfl

theorem encode_decodePpuRead (a : PpuAddr) : encode (decodePpuRead a) = .pr (a.setWidth 16) := by
  unfold decodePpuRead
  split <;> rfl

theorem encode_decodePpuWrite (a : PpuAddr) (d : Byte) : encode (decodePpuWrite a d) = .pw (a.setWidth 16) d := by
  unfold decodePpuWrite
  split <;> rfl

/-- Reducing a PPU operand to 14 bits masks it (R102). -/
theorem setWidth_ppuReduce (a : BusAddr) : (ppuReduce a).setWidth 16 = a &&& 0x3FFF#16 := by
  refine BitVec.eq_of_toNat_eq ?_
  have mask : a.toNat &&& 0x3FFF = a.toNat % 2 ^ 14 := Nat.and_two_pow_sub_one_eq_mod a.toNat 14
  have := Nat.mod_lt a.toNat (show 0 < 2 ^ 14 by decide)
  simp only [ppuReduce, BitVec.toNat_setWidth, BitVec.toNat_and, BitVec.toNat_ofNat, mask]
  omega

/-- The encoding of a decoded operation is the operation, a PPU address reduced to 14 bits. -/
theorem encode_decode (p : Params) (o : HostOp) :
    encode (decode p o) =
      match o with
      | .pw a d => .pw (a &&& 0x3FFF#16) d
      | .pr a => .pr (a &&& 0x3FFF#16)
      | o => o := by
  cases o with
  | cw a d => exact encode_decodeCpuWrite p a d
  | cr a => exact encode_decodeCpuRead a
  | pw a d => exact (encode_decodePpuWrite _ d).trans (by rw [setWidth_ppuReduce])
  | pr a => exact (encode_decodePpuRead _).trans (by rw [setWidth_ppuReduce])
  | a12 | reset | save | load bytes | ack => rfl

/-- The decode of an operation meets the address conditions of its row: it is the decode of its own encoding. -/
theorem decode_wellFormed (p : Params) (o : HostOp) : WellFormed p (decode p o) := by
  cases o with
  | cw a d => exact decodeCpuWrite_wellFormed p a d
  | cr a => cases h : a[15] <;> simp [decode, decodeCpuRead, WellFormed, wellFormed, h]
  | pw a d => by_cases h : ppuReduce a < 0x2000#14 <;> simp [decode, decodePpuWrite, WellFormed, wellFormed, h]
  | pr a => by_cases h : ppuReduce a < 0x2000#14 <;> simp [decode, decodePpuRead, WellFormed, wellFormed, h]
  | a12 | reset | save | load bytes | ack => rfl

/-- Settles O4: the decode keeps address and data in every row it chooses. -/
theorem everyOperationDecodesWhole : Obligations.EveryOperationDecodesWhole :=
  fun p o => ⟨decode_wellFormed p o, encode_decode p o⟩

/-! ### The address bits a write ignores -/

/-- A register write's meaning does not read its address. -/
theorem exec_decodeSlot_addr (slot : Slot) (a b : BusAddr) (d : Byte) (s : State) :
    exec (decodeSlot slot a d) s = exec (decodeSlot slot b d) s := by
  cases slot <;> rfl

/-- Addresses of one decode key agree in bit 15: the mask keeps it (R91). -/
theorem bit15_of_decodeKey {a b : BusAddr} (h : decodeKey a = decodeKey b) : a[15] = b[15] := by
  have key : ∀ a : BusAddr, (decodeKey a)[15] = a[15] := fun a => by simp [decodeKey]
  rw [← key a, ← key b, h]

theorem slotAt_of_decodeKey (m : SlotMap) {a b : BusAddr} (h : decodeKey a = decodeKey b) : slotAt m a = slotAt m b := by
  simp only [slotAt, h]

/-- Two writes that agree in bit 15, and on MMC3 in the slot, have one outcome. -/
theorem exec_decodeCpuWrite_congr {p : Params} {a b : BusAddr} (d : Byte) (h15 : a[15] = b[15])
    (slot : p.board = .mmc3 → slotAt p.slotMap a = slotAt p.slotMap b) (s : State) :
    exec (decodeCpuWrite p a d) s = exec (decodeCpuWrite p b d) s := by
  rcases decodeCpuWrite_cases p a d with ⟨ha, e⟩ | ⟨ha, hb, e⟩ | ⟨ha, hb, e⟩ <;> rw [e]
  · rw [decodeCpuWrite_low p d (h15 ▸ ha)]
    rfl
  · rw [decodeCpuWrite_mmc3 d hb (h15 ▸ ha), slot hb]
    exact exec_decodeSlot_addr _ a b d s
  · rw [decodeCpuWrite_simple d hb (h15 ▸ ha)]
    rfl

/-- Settles O5: the decode key fixes bit 15 and the slot, and no meaning reads the address of a write. -/
theorem otherWriteAddressBitsAreIgnored : Obligations.OtherWriteAddressBitsAreIgnored := by
  intro s a b d
  refine ⟨fun _ key => ?_, fun hb h15 => ?_⟩
  · exact exec_decodeCpuWrite_congr d (bit15_of_decodeKey key) (fun _ => slotAt_of_decodeKey _ key) s
  · exact exec_decodeCpuWrite_congr d h15 (fun mmc3 => by simp [hb] at mmc3) s

/-! ### Transactions written out, and writes without a target -/

/-- Settles O2: each word is decoded by evaluation, and the data byte is only carried. -/
theorem specWordsDecode : Obligations.SpecWordsDecode := by
  intro d
  exact ⟨rfl, rfl, rfl, rfl, rfl, rfl, rfl, rfl, rfl, rfl, rfl, rfl, rfl, rfl, rfl, rfl⟩

theorem bit15_eq_false_of_lt {a : BusAddr} (h : a < 0x8000#16) : a[15] = false := by
  rw [Bool.eq_false_iff, ne_eq, bit15_iff]
  exact Nat.not_le.2 h

theorem exec_cwUndecoded_of_none (hf : s.fault = none) (a : BusAddr) (d : Byte) : exec (.cwUndecoded a d) s = .next s :=
  (exec_cwUndecoded a d).2 ⟨hf, rfl⟩

/-- On MMC3 a write to an address whose slot is NONE is undecoded, on either side of $8000 (R101, R170). -/
theorem decodeCpuWrite_of_slot_none {p : Params} (hb : p.board = .mmc3) {a : BusAddr} (d : Byte)
    (slot : slotAt p.slotMap a = .none) : decodeCpuWrite p a d = .cwUndecoded a d := by
  cases h15 : a[15]
  · exact decodeCpuWrite_low p d h15
  · rw [decodeCpuWrite_mmc3 d hb h15, slot]
    rfl

/-- Settles O9: three instructions have no effect, and the writes named decode to one of them. -/
theorem writesWithoutATargetHaveNoEffect : Obligations.WritesWithoutATargetHaveNoEffect := by
  intro s a a' d hf
  have undecoded := exec_cwUndecoded_of_none hf a d
  refine ⟨(exec_prgMode a d).2 ⟨hf, rfl⟩, undecoded, (exec_pwNotServed a' d).2 ⟨hf, rfl⟩, fun low => ?_,
    fun hb slot => ?_⟩
  · rwa [decode, decodeCpuWrite_low _ d (bit15_eq_false_of_lt low)]
  · rwa [decode, decodeCpuWrite_of_slot_none hb d slot]

/-! ### The step -/

/-- Settles O1: the two arms of the step that take no address sample. -/
theorem stepRunsDecodedOperation : Obligations.StepRunsDecodedOperation := by
  refine ⟨fun s o rest h => ?_, fun s h hf => ?_⟩
  · rw [step, runNext, h]
    rfl
  · rw [step, runNext, h]
    exact running_of_none hf _

/-- Settles O28: the detector delivers under the statement's three conditions, and its state moves on in either case. -/
theorem detectorDeliversFilteredEdges : Obligations.DetectorDeliversFilteredEdges := by
  intro s a rest hf h
  have run : step s = sampleAddress a (s.putPending rest) := by
    rw [step, runNext, h]
  have delivers : detectorDelivers s.params.a12Filter s.detector a = true ↔
      a[12] = true ∧ s.detector.a12Prev = false ∧ s.params.a12Filter ≤ s.detector.lowRun := by
    simp [detectorDelivers, and_assoc]
  have guarded := running_of_none (s := s.putPending rest) hf
  rw [run, sampleAddress, guarded]
  simp only [State.putPending_params, State.putPending_detector, delivers]
  split
  · next rise =>
    rw [detectorNext, rise.1]
    rfl
  · rfl

end Sys2Proof.Machine

/-!
PROOF. The window table (spec/41_bank_window.md): the windows tile both spaces, none leaves its image, and an access goes to
the offset the closed forms compute from the registers (spec/43_mmc3_registers.md R175, spec/45_simple_switcher.md R235).
-/

namespace Sys2Proof.Machine

variable {s t : State}

/-! ### Windows that tile a range -/

/-- Each address from `lo` below `hi` is in exactly one window of the space, and no other address is in any. -/
def Tiles (ws : List Window) (space : Space) (lo hi : Nat) : Prop :=
  ∀ a, ws.countP (fun w => w.covers space a) = if lo ≤ a ∧ a < hi then 1 else 0

theorem Tiles.of_other_space {ws : List Window} {space : Space} (h : ∀ w ∈ ws, w.space ≠ space) (lo : Nat) :
    Tiles ws space lo lo := by
  intro a
  rw [if_neg (by omega), List.countP_eq_zero]
  exact fun w hw covers => h w hw ((covers_iff ..).1 covers).1

theorem Tiles.append {ws ws' : List Window} {space : Space} {lo mid hi : Nat} (h : Tiles ws space lo mid)
    (h' : Tiles ws' space mid hi) (le : lo ≤ mid) (le' : mid ≤ hi) : Tiles (ws ++ ws') space lo hi := by
  intro a
  rw [List.countP_append, h a, h' a]
  by_cases below : a < mid
  · simp [below, Nat.not_le.2 below, show a < hi by omega]
  · simp [below, Nat.not_lt.1 below, show lo ≤ a by omega]

theorem Tiles.swap {ws ws' : List Window} {space : Space} {lo hi : Nat} (h : Tiles (ws ++ ws') space lo hi) :
    Tiles (ws' ++ ws) space lo hi :=
  fun a => by rw [← h a, List.countP_append, List.countP_append, Nat.add_comm]

theorem Tiles.nil {space : Space} {lo : Nat} : Tiles [] space lo lo :=
  Tiles.of_other_space (fun _ h => absurd h List.not_mem_nil) lo

theorem Tiles.singleton {w : Window} {hi : Nat} (last : w.base + w.unit.bytes = hi) :
    Tiles [w] w.space w.base hi := by
  intro a
  subst last
  rw [List.countP_singleton]
  simp only [covers_iff, true_and]

/-- An assigned window in front of a tiled range that begins where the window ends. -/
theorem Tiles.cons {ws : List Window} {p : Params} {space : Space} {base mid hi : Nat} {unit : BankUnit} {b : Word}
    (h : Tiles ws space mid hi) (next : base + unit.bytes = mid) (le : mid ≤ hi) :
    Tiles (assign p space base unit b :: ws) space base hi :=
  (Tiles.singleton (w := assign p space base unit b) next).append h (next ▸ Nat.le_add_right ..) le

/-- In a tiled range the window that covers an address is the one the lookup finds. -/
theorem Tiles.lookup_eq {ws : List Window} {space : Space} {lo hi a : Nat} {w : Window} (h : Tiles ws space lo hi)
    (hw : w ∈ ws) (hc : w.covers space a = true) : lookup ws space a = some w := by
  have mem : w ∈ ws.filter fun w => w.covers space a := List.mem_filter.2 ⟨hw, hc⟩
  have one : (ws.filter fun w => w.covers space a).length ≤ 1 := by
    rw [← List.countP_eq_length_filter, h a]
    split <;> omega
  rw [lookup, ← List.head?_filter]
  match hf : ws.filter fun w => w.covers space a with
  | [] => simp [hf] at mem
  | [u] =>
    have only : w = u := by simpa [hf] using mem
    rw [hf, only, List.head?_cons]
  | u :: u' :: us => simp [hf] at one

/-! ### The tables of both variants -/

theorem mmc3ChrWindows_tiles (p : Params) (r : Mmc3Regs) : Tiles (mmc3ChrWindows p r) .chr 0 0x2000 := by
  have two (base) : Tiles [assign p .chr base .k2 (shr1 r.chr[0]), assign p .chr (base + 0x0800) .k2 (shr1 r.chr[1])]
      .chr base (base + 0x1000) := by
    refine .cons (mid := base + 0x0800) (.cons .nil ?_ ?_) ?_ ?_ <;> simp [BankUnit.bytes]
  have four (base) : Tiles [assign p .chr base .k1 r.chr[2], assign p .chr (base + 0x0400) .k1 r.chr[3],
      assign p .chr (base + 0x0800) .k1 r.chr[4], assign p .chr (base + 0x0C00) .k1 r.chr[5]]
      .chr base (base + 0x1000) := by
    refine .cons (mid := base + 0x0400) (.cons (mid := base + 0x0800) (.cons (mid := base + 0x0C00)
      (.cons .nil ?_ ?_) ?_ ?_) ?_ ?_) ?_ ?_ <;> simp [BankUnit.bytes]
  unfold mmc3ChrWindows
  cases r.flagC
  · exact (two 0).append (four 0x1000) (by decide) (by decide)
  · exact ((four 0).append (two 0x1000) (by decide) (by decide)).swap

theorem mmc3PrgWindows_tiles (p : Params) (r : Mmc3Regs) : Tiles (mmc3PrgWindows p r) .prg 0x8000 0x10000 := by
  refine .cons (mid := 0xA000) (.cons (mid := 0xC000) (.cons (mid := 0xE000) (.cons .nil ?_ ?_) ?_ ?_) ?_ ?_) ?_ ?_ <;>
    simp [BankUnit.bytes]

/-- Every window table tiles $8000-$FFFF with PRG windows and $0000-$1FFF with CHR windows. -/
theorem windowTable_tiles (p : Params) (r : Mmc3Regs) (q : SimpleRegs) :
    Tiles (windowTable p r q) .prg 0x8000 0x10000 ∧ Tiles (windowTable p r q) .chr 0 0x2000 := by
  cases hb : p.board
  case mmc3 =>
    have chrOnly : ∀ w ∈ mmc3ChrWindows p r, w.space ≠ .prg := by simp [mmc3ChrWindows, assign]
    have prgOnly : ∀ w ∈ mmc3PrgWindows p r, w.space ≠ .chr := by simp [mmc3PrgWindows, assign]
    rw [windowTable_mmc3 hb]
    exact ⟨(Tiles.of_other_space chrOnly 0x8000).append (mmc3PrgWindows_tiles p r) (by decide) (by decide),
      (mmc3ChrWindows_tiles p r).append (Tiles.of_other_space prgOnly 0x2000) (by decide) (by decide)⟩
  case simple =>
    have high : Tiles [{ space := .prg, base := 0xC000, unit := .k16, index := m16P p }] .prg 0xC000 0x10000 :=
      Tiles.singleton (show 0xC000 + 16384 = 0x10000 from rfl)
    have chrWindow : Tiles [assign p .chr 0x0000 .k8 q.chrBank] .chr 0 0x2000 :=
      .cons .nil (by simp [BankUnit.bytes]) (le_refl _)
    have low : Tiles [assign p .prg 0x8000 .k16 q.prgBank] .prg 0x8000 0xC000 :=
      .cons .nil (by simp [BankUnit.bytes]) (le_refl _)
    have chrOnly : ∀ w ∈ [assign p .chr 0x0000 .k8 q.chrBank], w.space ≠ .prg := by simp [assign]
    have prgOnly : ∀ w ∈ [assign p .prg 0x8000 .k16 q.prgBank,
        { space := .prg, base := 0xC000, unit := .k16, index := m16P p }], w.space ≠ .chr := by simp [assign]
    rw [windowTable_simple hb]
    exact ⟨low.append (high.append (Tiles.of_other_space chrOnly 0x10000) (by decide) (by decide))
      (by decide) (by decide), (Tiles.of_other_space prgOnly 0).append chrWindow (by decide) (by decide)⟩

/-- Settles O43: the windows of each layout follow each other without a gap, whatever banks they map. -/
theorem windowsTileBothSpaces : Obligations.WindowsTileBothSpaces := by
  intro p r q a
  obtain ⟨prg, chr⟩ := windowTable_tiles p r q
  simp only [← List.countP_eq_length_filter]
  exact ⟨prg a, (chr a).trans (by simp)⟩

/-! ### No window leaves its image -/

/-- The bank a window maps lies inside the image of its space. -/
def Window.Inside (p : Params) (w : Window) : Prop := (w.index + 1) * w.unit.bytes ≤ imageSize p w.space

/-- A masked index stays inside every image that holds one bank (R121, R125). -/
theorem assign_inside {p : Params} {space : Space} {unit : BankUnit} (h : unit.bytes ≤ imageSize p space) (base : Nat)
    (b : Word) : (assign p space base unit b).Inside p := by
  have pos : 0 < unit.bytes := by cases unit <;> decide
  have lt := bankIndex_lt (Nat.div_pos h pos) b
  exact (Nat.mul_le_mul_right _ lt).trans (Nat.div_mul_le_self ..)

theorem SizesOk.prg_le {p : Params} (sizes : SizesOk p) : prgUnit p.board ≤ p.prgSize := by
  obtain ⟨k, hk⟩ := sizes.prg
  rw [hk]
  exact Nat.le_mul_of_pos_right _ (Nat.two_pow_pos k)

theorem SizesOk.chr_le {p : Params} (sizes : SizesOk p) : 8192 ≤ p.chrSize := by
  obtain ⟨k, hk⟩ := sizes.chr
  rw [hk]
  exact Nat.le_mul_of_pos_right _ (Nat.two_pow_pos k)

/-- On accepted sizes every window of a table is inside its image. -/
theorem windowTable_inside {p : Params} (sizes : SizesOk p) {r : Mmc3Regs} {q : SimpleRegs} {w : Window}
    (hw : w ∈ windowTable p r q) : w.Inside p := by
  have prg := sizes.prg_le
  have chr8 : BankUnit.k8.bytes ≤ imageSize p .chr := sizes.chr_le
  have chr2 : BankUnit.k2.bytes ≤ imageSize p .chr := le_trans (by decide) chr8
  have chr1 : BankUnit.k1.bytes ≤ imageSize p .chr := le_trans (by decide) chr8
  cases hb : p.board
  case mmc3 =>
    rw [hb] at prg
    simp only [windowTable_mmc3 hb, mmc3ChrWindows, mmc3PrgWindows, List.mem_append, List.mem_cons,
      List.not_mem_nil, or_false] at hw
    obtain (rfl | rfl | rfl | rfl | rfl | rfl) | rfl | rfl | rfl | rfl := hw
    · exact assign_inside chr2 ..
    · exact assign_inside chr2 ..
    iterate 4 exact assign_inside chr1 ..
    iterate 4 exact assign_inside (space := .prg) (unit := .k8) prg ..
  case simple =>
    rw [hb] at prg
    simp only [windowTable_simple hb, simpleWindows, List.mem_cons, List.not_mem_nil, or_false] at hw
    obtain rfl | rfl | rfl := hw
    · exact assign_inside (space := .prg) (unit := .k16) prg ..
    · rw [Window.Inside, Nat.succ_mul]
      exact (m16P_mul_add hb sizes).le
    · exact assign_inside chr8 ..

/-- A window inside its image translates each address it covers to an offset inside the image (R122). -/
theorem windowTranslate_of_inside {p : Params} {w : Window} {a : Nat} (inside : w.Inside p)
    (hc : w.covers w.space a = true) :
    windowTranslate p w a = .ok (w.index * w.unit.bytes + (a - w.base)) ∧
      w.index * w.unit.bytes + (a - w.base) < imageSize p w.space := by
  obtain ⟨-, lo, hi⟩ := (covers_iff ..).1 hc
  rw [Window.Inside, Nat.succ_mul] at inside
  have lt : w.index * w.unit.bytes + (a - w.base) < imageSize p w.space := by omega
  exact ⟨by rw [windowTranslate_eq, if_pos lt], lt⟩

/-- Settles O44: every window of a table is inside its image (`windowTable_inside`). -/
theorem windowsNeverLeaveTheImage : Obligations.WindowsNeverLeaveTheImage :=
  fun _ _ _ _ _ sizes hw hc => ⟨_, windowTranslate_of_inside (windowTable_inside sizes hw) hc⟩

/-! ### The offset of an access -/

/-- Where the windows follow the registers, an address a window of the table covers goes to its place in that window. -/
theorem windowOffset_of_mem (sizes : SizesOk s.params) (follow : s.WindowsFollow) {w : Window} {a : Nat}
    (hw : w ∈ windowTable s.params s.mmc3 s.simple) (hc : w.covers w.space a = true) :
    windowOffset s w.space a = .ok (w.index * w.unit.bytes + (a - w.base)) := by
  have tiles := windowTable_tiles s.params s.mmc3 s.simple
  have found : lookup s.windows w.space a = some w := by
    rw [follow]
    match hs : w.space with
    | .prg => exact tiles.1.lookup_eq hw (hs ▸ hc)
    | .chr => exact tiles.2.lookup_eq hw (hs ▸ hc)
  rw [windowOffset, found]
  exact (windowTranslate_of_inside (windowTable_inside sizes hw) hc).1

/-- The same, for the window of a base, unit and bank register. -/
theorem windowOffset_of_assign_mem (sizes : SizesOk s.params) (follow : s.WindowsFollow) {space : Space} {base a : Nat}
    {unit : BankUnit} {b : Word} (hw : assign s.params space base unit b ∈ windowTable s.params s.mmc3 s.simple)
    (lo : base ≤ a) (hi : a < base + unit.bytes) :
    windowOffset s space a =
      .ok (bankIndex (imageSize s.params space / unit.bytes) b * unit.bytes + (a - base)) :=
  windowOffset_of_mem sizes follow hw ((assign_covers_iff ..).2 ⟨rfl, lo, hi⟩)

/-- The low bits of an address, as a number. -/
theorem toNat_extractLow {n : Nat} (k : Nat) (a : BitVec n) : (a.extractLsb' 0 k).toNat = a.toNat % 2 ^ k := by
  rw [BitVec.extractLsb'_toNat, Nat.shiftRight_zero]

/-- The PRG register of window `n` of the MMC3 layout (R173). -/
def mmc3PrgReg (r : Mmc3Regs) (n : Nat) : Word :=
  match n with
  | 0 => if r.flagP then r.prg[2] else r.prg[0]
  | 1 => r.prg[1]
  | 2 => if r.flagP then r.prg[0] else r.prg[2]
  | _ => r.prg[3]

theorem mmc3PrgOffset_eq (p : Params) (r : Mmc3Regs) (a : BusAddr) :
    mmc3PrgOffset p r a =
      bankIndex (p.prgSize / 8192) (mmc3PrgReg r (a.toNat / 8192 % 4)) * 8192 + a.toNat % 8192 := by
  have n : (a.extractLsb' 13 2).toNat = a.toNat / 8192 % 4 := by
    rw [BitVec.extractLsb'_toNat, Nat.shiftRight_eq_div_pow]
  have o : (a.extractLsb' 0 13).toNat = a.toNat % 8192 := toNat_extractLow 13 a
  rw [← n, ← o]
  rfl

theorem mmc3PrgWindows_mem (p : Params) (r : Mmc3Regs) {n : Nat} (h : n < 4) :
    assign p .prg (0x8000 + n * 0x2000) .k8 (mmc3PrgReg r n) ∈ mmc3PrgWindows p r := by
  match n, h with
  | 0, _ | 1, _ | 2, _ | 3, _ => simp [mmc3PrgWindows, mmc3PrgReg]

theorem simplePrgOffset_eq (p : Params) (r : SimpleRegs) (a : BusAddr) :
    simplePrgOffset p r a =
      (if a.toNat < 0xC000 then bankIndex (p.prgSize / 16384) r.prgBank else m16P p) * 16384 + a.toNat % 16384 := by
  have o : (a.extractLsb' 0 14).toNat = a.toNat % 16384 := toNat_extractLow 14 a
  rw [← o]
  rfl

theorem windowOffset_prg_mmc3 (hb : s.params.board = .mmc3) (sizes : SizesOk s.params) (follow : s.WindowsFollow)
    {a : BusAddr} (lo : 0x8000 ≤ a.toNat) : windowOffset s .prg a.toNat = .ok (mmc3PrgOffset s.params s.mmc3 a) := by
  have hi := a.isLt
  have mem := mmc3PrgWindows_mem s.params s.mmc3 (n := a.toNat / 8192 % 4) (Nat.mod_lt _ (by decide))
  have place : a.toNat = 0x8000 + a.toNat / 8192 % 4 * 0x2000 + a.toNat % 8192 := by omega
  have offset := windowOffset_of_assign_mem sizes follow (windowTable_mmc3 hb .. ▸ List.mem_append_right _ mem)
    (a := a.toNat) (by omega) (by simp only [BankUnit.bytes]; omega)
  rw [offset, mmc3PrgOffset_eq]
  exact congrArg (fun o => Except.ok (_ + o)) (Nat.sub_eq_of_eq_add' place)

theorem windowOffset_prg_simple (hb : s.params.board = .simple) (sizes : SizesOk s.params) (follow : s.WindowsFollow)
    {a : BusAddr} (lo : 0x8000 ≤ a.toNat) : windowOffset s .prg a.toNat = .ok (simplePrgOffset s.params s.simple a) := by
  have hi := a.isLt
  rw [simplePrgOffset_eq]
  split
  · next low =>
    have mem : assign s.params .prg 0x8000 .k16 s.simple.prgBank ∈ windowTable s.params s.mmc3 s.simple := by
      simp [windowTable_simple hb, simpleWindows]
    rw [windowOffset_of_assign_mem sizes follow mem lo (by simp only [BankUnit.bytes]; omega)]
    simp only [imageSize, BankUnit.bytes]
    exact congrArg Except.ok (by omega)
  · next high =>
    have last := m16P_mul_add hb sizes
    rw [windowOffset_simple_high hb sizes follow (Nat.not_lt.1 high) hi]
    exact congrArg Except.ok (by omega)

theorem prgOffset_mmc3 (hb : s.params.board = .mmc3) (a : BusAddr) :
    prgOffset s a = mmc3PrgOffset s.params s.mmc3 a := by
  simp [prgOffset, hb]

theorem prgOffset_simple (hb : s.params.board = .simple) (a : BusAddr) :
    prgOffset s a = simplePrgOffset s.params s.simple a := by
  simp [prgOffset, hb]

/-- A CPU address from $8000 up goes to the PRG offset of the closed form (R141, R175, R235). -/
theorem windowOffset_prg (sizes : SizesOk s.params) (follow : s.WindowsFollow) {a : BusAddr} (h15 : a[15] = true) :
    windowOffset s .prg a.toNat = .ok (prgOffset s a) := by
  have lo := (bit15_iff a).1 h15
  cases hb : s.params.board
  case mmc3 => exact prgOffset_mmc3 hb a ▸ windowOffset_prg_mmc3 hb sizes follow lo
  case simple => exact prgOffset_simple hb a ▸ windowOffset_prg_simple hb sizes follow lo

/-! ### The CHR layout of MMC3 -/

/-- The 1 KiB slot of a PPU address, counted from the two 2 KiB windows on: `flag_c` swaps the halves (R172, R175). -/
def mmc3ChrSlot (flagC : Bool) (a : PpuAddr) : Nat :=
  (a.extractLsb' 10 3 ^^^ (if flagC then 4#3 else 0#3)).toNat

/-- Where the 2 KiB windows begin (R172). -/
def mmc3ChrBase2 (flagC : Bool) : Nat := if flagC then 0x1000 else 0x0000

/-- Where the 1 KiB windows begin (R172). -/
def mmc3ChrBase1 (flagC : Bool) : Nat := if flagC then 0x0000 else 0x1000

/-- An address below $2000 is in the half of its slot, at the slot's place there. -/
theorem mmc3ChrSlot_place (flagC : Bool) {a : PpuAddr} (h : a < 0x2000#14) :
    mmc3ChrSlot flagC a < 8 ∧
      a.toNat = (if mmc3ChrSlot flagC a < 4 then mmc3ChrBase2 flagC + mmc3ChrSlot flagC a * 1024
        else mmc3ChrBase1 flagC + (mmc3ChrSlot flagC a - 4) * 1024) + a.toNat % 1024 := by
  have lt : a.toNat < 0x2000 := h
  have slot : (a.extractLsb' 10 3).toNat = a.toNat / 1024 := by
    rw [BitVec.extractLsb'_toNat, Nat.shiftRight_eq_div_pow]
    omega
  refine ⟨BitVec.isLt _, ?_⟩
  cases flagC
  case false =>
    simp only [mmc3ChrSlot, mmc3ChrBase2, mmc3ChrBase1, BitVec.xor_zero, slot, Bool.false_eq_true, if_false]
    split <;> omega
  case true =>
    have flip : ∀ x : BitVec 3, (x ^^^ 4#3).toNat = if x.toNat < 4 then x.toNat + 4 else x.toNat - 4 := by decide
    simp only [mmc3ChrSlot, mmc3ChrBase2, mmc3ChrBase1, flip, slot, if_true]
    by_cases low : a.toNat / 1024 < 4
    · simp only [low, if_true]
      split <;> omega
    · simp only [low, if_false]
      split <;> omega

theorem mmc3ChrWindows_mem2 (p : Params) (r : Mmc3Regs) {j : Nat} (h : j < 2) :
    assign p .chr (mmc3ChrBase2 r.flagC + j * 0x0800) .k2 (shr1 (r.chr[j])) ∈ mmc3ChrWindows p r := by
  match j, h with
  | 0, _ | 1, _ => simp [mmc3ChrWindows, mmc3ChrBase2]

theorem mmc3ChrWindows_mem1 (p : Params) (r : Mmc3Regs) {j : Nat} (h : j < 4) :
    assign p .chr (mmc3ChrBase1 r.flagC + j * 0x0400) .k1 (r.chr[j + 2]) ∈ mmc3ChrWindows p r := by
  match j, h with
  | 0, _ | 1, _ | 2, _ | 3, _ => simp [mmc3ChrWindows, mmc3ChrBase1]

/-- The closed form below the middle of the slots: a register of the 2 KiB windows, halved. -/
theorem mmc3ChrOffset_eq2 (p : Params) (r : Mmc3Regs) {a : PpuAddr} (h : mmc3ChrSlot r.flagC a < 4) :
    mmc3ChrOffset p r a =
      (bankIndex (p.chrSize / 2048) (shr1 (r.chr[mmc3ChrSlot r.flagC a / 2])) * 2 + mmc3ChrSlot r.flagC a % 2) * 1024
        + a.toNat % 1024 := by
  have o : (a.extractLsb' 0 10).toNat = a.toNat % 1024 := toNat_extractLow 10 a
  have reg : r.chr[mmc3ChrSlot r.flagC a / 2]?.getD 0 = r.chr[mmc3ChrSlot r.flagC a / 2] := by
    rw [Vector.getElem?_eq_getElem (by omega), Option.getD_some]
  rw [← o, ← reg]
  exact congrArg (fun b => b * 1024 + _) (if_pos h)

/-- The closed form above the middle of the slots: a register of the 1 KiB windows. -/
theorem mmc3ChrOffset_eq1 (p : Params) (r : Mmc3Regs) {a : PpuAddr} (lo : 4 ≤ mmc3ChrSlot r.flagC a)
    (hi : mmc3ChrSlot r.flagC a < 8) :
    mmc3ChrOffset p r a =
      bankIndex (p.chrSize / 1024) (r.chr[mmc3ChrSlot r.flagC a - 2]) * 1024 + a.toNat % 1024 := by
  have o : (a.extractLsb' 0 10).toNat = a.toNat % 1024 := toNat_extractLow 10 a
  have reg : r.chr[mmc3ChrSlot r.flagC a - 2]?.getD 0 = r.chr[mmc3ChrSlot r.flagC a - 2] := by
    rw [Vector.getElem?_eq_getElem (by omega), Option.getD_some]
  rw [← o, ← reg]
  exact congrArg (fun b => b * 1024 + _) (if_neg (Nat.not_lt.2 lo))

theorem windowOffset_chr_mmc3 (hb : s.params.board = .mmc3) (sizes : SizesOk s.params) (follow : s.WindowsFollow)
    {a : PpuAddr} (h : a < 0x2000#14) : windowOffset s .chr a.toNat = .ok (mmc3ChrOffset s.params s.mmc3 a) := by
  obtain ⟨lt, place⟩ := mmc3ChrSlot_place s.mmc3.flagC h
  have chrWindow {w : Window} (mem : w ∈ mmc3ChrWindows s.params s.mmc3) :
      w ∈ windowTable s.params s.mmc3 s.simple := windowTable_mmc3 hb .. ▸ List.mem_append_left _ mem
  by_cases half : mmc3ChrSlot s.mmc3.flagC a < 4
  · have mem := mmc3ChrWindows_mem2 s.params s.mmc3 (j := mmc3ChrSlot s.mmc3.flagC a / 2) (by omega)
    rw [if_pos half] at place
    rw [windowOffset_of_assign_mem sizes follow (chrWindow mem) (by omega) (by simp only [BankUnit.bytes]; omega),
      mmc3ChrOffset_eq2 _ _ half]
    simp only [imageSize, BankUnit.bytes]
    exact congrArg Except.ok (by omega)
  · have mem := mmc3ChrWindows_mem1 s.params s.mmc3 (j := mmc3ChrSlot s.mmc3.flagC a - 4) (by omega)
    have reg : mmc3ChrSlot s.mmc3.flagC a - 4 + 2 = mmc3ChrSlot s.mmc3.flagC a - 2 := by omega
    rw [if_neg half] at place
    simp only [reg] at mem
    rw [windowOffset_of_assign_mem sizes follow (chrWindow mem) (by omega) (by simp only [BankUnit.bytes]; omega),
      mmc3ChrOffset_eq1 _ _ (Nat.not_lt.1 half) lt]
    simp only [imageSize, BankUnit.bytes]
    exact congrArg Except.ok (by omega)

/-! ### The CHR offset of both variants -/

theorem simpleChrOffset_eq (p : Params) (q : SimpleRegs) {a : PpuAddr} (h : a < 0x2000#14) :
    simpleChrOffset p q a = bankIndex (p.chrSize / 8192) q.chrBank * 8192 + a.toNat := by
  have o : (a.extractLsb' 0 13).toNat = a.toNat := (toNat_extractLow 13 a).trans (Nat.mod_eq_of_lt h)
  conv_rhs => rw [← o]
  rfl

theorem windowOffset_chr_simple (hb : s.params.board = .simple) (sizes : SizesOk s.params) (follow : s.WindowsFollow)
    {a : PpuAddr} (h : a < 0x2000#14) :
    windowOffset s .chr a.toNat = .ok (simpleChrOffset s.params s.simple a) := by
  have mem : assign s.params .chr 0x0000 .k8 s.simple.chrBank ∈ windowTable s.params s.mmc3 s.simple := by
    simp [windowTable_simple hb, simpleWindows]
  have lt : a.toNat < 0 + BankUnit.k8.bytes := by
    simpa [BankUnit.bytes] using BitVec.lt_def.1 h
  rw [windowOffset_of_assign_mem sizes follow mem (Nat.zero_le _) lt, simpleChrOffset_eq _ _ h]
  rfl

theorem chrOffset_mmc3 (hb : s.params.board = .mmc3) (a : PpuAddr) :
    chrOffset s a = mmc3ChrOffset s.params s.mmc3 a := by
  simp [chrOffset, hb]

theorem chrOffset_simple (hb : s.params.board = .simple) (a : PpuAddr) :
    chrOffset s a = simpleChrOffset s.params s.simple a := by
  simp [chrOffset, hb]

/-- A PPU address below $2000 goes to the CHR offset of the closed form (R144, R175, R235). -/
theorem windowOffset_chr (sizes : SizesOk s.params) (follow : s.WindowsFollow) {a : PpuAddr} (h : a < 0x2000#14) :
    windowOffset s .chr a.toNat = .ok (chrOffset s a) := by
  cases hb : s.params.board
  case mmc3 => exact chrOffset_mmc3 hb a ▸ windowOffset_chr_mmc3 hb sizes follow h
  case simple => exact chrOffset_simple hb a ▸ windowOffset_chr_simple hb sizes follow h

/-- Flipping bit 12 of the address and `flag_c` together leaves the slot and the offset (R172). -/
theorem mmc3ChrOffset_flip (p : Params) (r : Mmc3Regs) (a : PpuAddr) :
    mmc3ChrOffset p { r with flagC := false } (a ^^^ 0x1000#14) = mmc3ChrOffset p { r with flagC := true } a := by
  have high : (a ^^^ 0x1000#14).extractLsb' 10 3 ^^^ 0#3 = a.extractLsb' 10 3 ^^^ 4#3 := by
    simp [BitVec.extractLsb'_xor]
  have low : (a ^^^ 0x1000#14).extractLsb' 0 10 = a.extractLsb' 0 10 := by
    simp [BitVec.extractLsb'_xor]
  simp only [mmc3ChrOffset, low, Bool.false_eq_true, if_false, if_true, high]

/-- Settles O45: both layouts follow the closed form, which reads the address and `flag_c` through the slot alone. -/
theorem chrLayoutsMirrorEachOther : Obligations.ChrLayoutsMirrorEachOther := by
  intro s a sizes hb h
  have flipped : a ^^^ 0x1000#14 < 0x2000#14 := by
    rw [BitVec.lt_def, BitVec.toNat_xor]
    exact Nat.xor_lt_two_pow (n := 13) h (by decide)
  refine ⟨mmc3ChrOffset s.params { s.mmc3 with flagC := true } a, ?_, ?_⟩
  · exact windowOffset_chr_mmc3 (s := State.recompute { s with mmc3 := { s.mmc3 with flagC := true } }) hb sizes
      (State.recompute_windowsFollow _) h
  · rw [← mmc3ChrOffset_flip]
    exact windowOffset_chr_mmc3 (s := State.recompute { s with mmc3 := { s.mmc3 with flagC := false } }) hb sizes
      (State.recompute_windowsFollow _) flipped

end Sys2Proof.Machine

/-!
PROOF. The accesses (spec/42_board_dispatch.md R141 to R145): a served read returns the byte at the closed-form offset, a PPU
write stores one byte there, a bank write is seen by the next read, and an access past the image raises OutOfBounds.
-/

namespace Sys2Proof.Machine

variable {s t : State}

/-! ### Served accesses -/

/-- A PPU read whose address has an offset returns the CHR byte there (R124, R144). -/
theorem exec_prChr_of_offset {a : PpuAddr} {o : Nat} (hf : s.fault = none) (h : windowOffset s .chr a.toNat = .ok o) :
    exec (.prChr a) s = .next (s.putReadData (some (chrRead s o))) :=
  (exec_prChr a).2 ⟨hf, by rw [windowReadChr, h, finishRead]⟩

/-- A PPU write whose address has an offset writes there on a RAM board, and nothing on a ROM board (R127). -/
theorem exec_pwChr_of_offset {a : PpuAddr} {o : Nat} (d : Byte) (hf : s.fault = none)
    (h : windowOffset s .chr a.toNat = .ok o) :
    exec (.pwChr a d) s =
      .next (if s.params.chrIsRam then { s with chrRam := Memory.write s.chrRam o d } else s) :=
  (exec_pwChr a d).2 ⟨hf, by rw [windowWriteChr, h]⟩

/-- Where the windows follow the registers, a CPU read from $8000 up follows the closed form. -/
theorem exec_crPrg_closed (hf : s.fault = none) (sizes : SizesOk s.params) (follow : s.WindowsFollow) {a : BusAddr}
    (h15 : a[15] = true) : exec (.crPrg a) s = .next (s.putReadData (some (prgRom s.params (prgOffset s a)))) :=
  exec_crPrg_of_offset hf (windowOffset_prg sizes follow h15)

/-- Where the windows follow the registers, a PPU read below $2000 follows the closed form. -/
theorem exec_prChr_closed (hf : s.fault = none) (sizes : SizesOk s.params) (follow : s.WindowsFollow) {a : PpuAddr}
    (h : a < 0x2000#14) : exec (.prChr a) s = .next (s.putReadData (some (chrRead s (chrOffset s a)))) :=
  exec_prChr_of_offset hf (windowOffset_chr sizes follow h)

/-- Settles O16: the invariant has the windows follow the registers. -/
theorem cpuReadFollowsTheClosedForm : Obligations.CpuReadFollowsTheClosedForm :=
  fun _ _ inv hf h15 => exec_crPrg_closed hf inv.sizes inv.windows h15

/-- Settles O18: the invariant has the windows follow the registers. -/
theorem ppuReadFollowsTheClosedForm : Obligations.PpuReadFollowsTheClosedForm :=
  fun _ _ inv hf h => exec_prChr_closed hf inv.sizes inv.windows h

/-! ### The PPU write -/

theorem chrRead_ram (h : s.params.chrIsRam = true) (o : Nat) :
    chrRead s o = (Memory.read s.chrRam o).getD (Config.chrRamByte o) := by
  rw [chrRead, if_pos h]
  cases Memory.read s.chrRam o <;> rfl

/-- Settles O20: the write lists the byte at the closed-form offset, and every other offset keeps its entry. -/
theorem ppuWriteStoresOneChrRamByte : Obligations.PpuWriteStoresOneChrRamByte := by
  intro s a d inv hf h
  have write := exec_pwChr_of_offset d hf (windowOffset_chr inv.sizes inv.windows h)
  refine ⟨fun ram => ?_, fun rom => ?_⟩
  · rw [if_pos ram] at write
    have read (m : Memory) (o) : chrRead { s with chrRam := m } o = (Memory.read m o).getD (Config.chrRamByte o) :=
      chrRead_ram (s := { s with chrRam := m }) ram o
    refine ⟨_, write, rfl, ?_, fun o ne => ?_⟩
    · rw [read, Memory.read_write_self, Option.getD_some]
    · rw [read, Memory.read_write_other _ _ ne, chrRead_ram ram]
  · rwa [if_neg (by simp [rom])] at write

/-! ### An access past the image -/

/-- A window the lookup finds gives the offset or the fault of its `translate` (R122, R123). -/
theorem windowOffset_of_past {space : Space} {w : Window} {a : Nat} (found : lookup s.windows space a = some w)
    (past : imageSize s.params space ≤ w.index * w.unit.bytes + (a - w.base)) :
    windowOffset s space a = .error (.outOfBounds space (some w) a) := by
  obtain ⟨rfl, -⟩ := (covers_iff ..).1 (lookup_covers found).2
  rw [windowOffset, found]
  exact (windowTranslate_eq ..).trans (if_neg (Nat.not_lt.2 past))

/-- Settles O21: each access raises the fault of its window's `translate`. -/
theorem accessPastTheImageRaisesOutOfBounds : Obligations.AccessPastTheImageRaisesOutOfBounds := by
  intro s w hf
  refine ⟨fun a found past => ?_, fun a found past => ⟨?_, fun d => ?_⟩⟩
  · exact (exec_crPrg a).2 ⟨hf, by rw [windowReadPrg, windowOffset_of_past found past]; rfl⟩
  · exact (exec_prChr a).2 ⟨hf, by rw [windowReadChr, windowOffset_of_past found past]; rfl⟩
  · exact (exec_pwChr a d).2 ⟨hf, by rw [windowWriteChr, windowOffset_of_past found past]; rfl⟩

/-! ### A bank switch and the next read -/

/-- From any state with accepted sizes, a read after Recompute follows the closed forms of the registers it read. -/
theorem recompute_reads_closed (hf : s.fault = none) (sizes : SizesOk s.params) :
    (∀ b : BusAddr, b[15] = true → exec (.crPrg b) s.recompute =
      .next (s.recompute.putReadData (some (prgRom s.recompute.params (prgOffset s.recompute b))))) ∧
    ∀ b : PpuAddr, b < 0x2000#14 → exec (.prChr b) s.recompute =
      .next (s.recompute.putReadData (some (chrRead s.recompute (chrOffset s.recompute b)))) :=
  ⟨fun _ => exec_crPrg_closed (s := s.recompute) hf sizes s.recompute_windowsFollow,
    fun _ => exec_prChr_closed (s := s.recompute) hf sizes s.recompute_windowsFollow⟩

/-- Settles O46: each of the three writes ends in Recompute. -/
theorem newBankIsSeenByTheNextRead : Obligations.NewBankIsSeenByTheNextRead := by
  rintro s i sizes hf (⟨hb, a, d, rfl | rfl⟩ | ⟨hb, a, d, rfl⟩)
  · refine ⟨_, (exec_bankSelect a d).2 ⟨hf, (if_pos hb).symm⟩, ?_⟩
    exact recompute_reads_closed (s := { s with mmc3 := _ }) hf sizes
  · refine ⟨_, (exec_bankData a d).2 ⟨hf, (if_pos hb).symm⟩, ?_⟩
    exact recompute_reads_closed (s := { s with mmc3 := _ }) hf sizes
  · refine ⟨_, (exec_simpleWrite a d).2 ⟨hf, (if_pos hb).symm⟩, ?_⟩
    exact recompute_reads_closed (s := { s with simple := _ }) hf sizes

theorem SizesOk.prg_mmc3 {p : Params} (sizes : SizesOk p) (hb : p.board = .mmc3) : ∃ k, p.prgSize = 8192 * 2 ^ k := by
  simpa [hb, prgUnit] using sizes.prg

theorem SizesOk.prg_simple {p : Params} (sizes : SizesOk p) (hb : p.board = .simple) :
    ∃ k, p.prgSize = 16384 * 2 ^ k := by
  simpa [hb, prgUnit] using sizes.prg

/-- Masking with the count of a power of two of banks is the remainder, for counts above 2^32 too (R121). -/
theorem bankIndex_two_pow (k : Nat) (b : Word) : bankIndex (2 ^ k) b = b.toNat % 2 ^ k := by
  have lt : b.toNat % 2 ^ k < 2 ^ 32 := (Nat.mod_le ..).trans_lt b.isLt
  calc bankIndex (2 ^ k) b
      = b.toNat % 2 ^ 32 &&& (2 ^ k - 1) % 2 ^ 32 := by
        rw [bankIndex, BitVec.toNat_and, BitVec.toNat_ofNat, Nat.mod_eq_of_lt b.isLt]
    _ = (b.toNat &&& (2 ^ k - 1)) % 2 ^ 32 := (Nat.and_mod_two_pow ..).symm
    _ = b.toNat % 2 ^ k := by rw [Nat.and_two_pow_sub_one_eq_mod, Nat.mod_eq_of_lt lt]

/-- The banks of an image that is a power of two of them. -/
theorem bankIndex_of_size {size unit k : Nat} (hu : 0 < unit) (h : size = unit * 2 ^ k) (b : Word) :
    bankIndex (size / unit) b = b.toNat % (size / unit) := by
  rw [h, Nat.mul_div_cancel_left _ hu, bankIndex_two_pow]

theorem toNat_zext32 (d : Byte) : (zext32 d).toNat = d.toNat :=
  BitVec.toNat_setWidth_of_le (by decide)

theorem toNat_fieldCB (d : Byte) : (fieldCB d).toNat = d.toNat % 4 := by
  rw [fieldCB, toNat_zext32, BitVec.toNat_and]
  exact Nat.and_two_pow_sub_one_eq_mod d.toNat 2

theorem toNat_fieldPB (d : Byte) : (fieldPB d).toNat = d.toNat / 4 % 16 := by
  rw [fieldPB, toNat_zext32, BitVec.toNat_and, BitVec.toNat_ushiftRight, Nat.shiftRight_eq_div_pow]
  exact Nat.and_two_pow_sub_one_eq_mod (d.toNat / 4) 4

theorem putBankData_latch6 {r : Mmc3Regs} (h : r.latch = 6#32) (d : Byte) :
    putBankData r d = { r with prg := r.prg.set 0 (zext32 d) } := by
  simp [putBankData, h]

/-- With `flag_p` clear, $8000-$9FFF reads the bank of `prg[0]`. -/
theorem mmc3PrgOffset_first {p : Params} {r : Mmc3Regs} (hp : r.flagP = false) {a : BusAddr} (lo : 0x8000 ≤ a.toNat)
    (hi : a.toNat < 0xA000) :
    mmc3PrgOffset p r a = bankIndex (p.prgSize / 8192) r.prg[0] * 8192 + (a.toNat - 0x8000) := by
  have n : a.toNat / 8192 % 4 = 0 := by omega
  rw [mmc3PrgOffset_eq, n, mmc3PrgReg, if_neg (by simp [hp]), show a.toNat % 8192 = a.toNat - 0x8000 by omega]

/-- $8000-$BFFF reads the bank of `prg_bank` on SIMPLE. -/
theorem simplePrgOffset_low (p : Params) (q : SimpleRegs) {a : BusAddr} (lo : 0x8000 ≤ a.toNat)
    (hi : a.toNat < 0xC000) :
    simplePrgOffset p q a = bankIndex (p.prgSize / 16384) q.prgBank * 16384 + (a.toNat - 0x8000) := by
  rw [simplePrgOffset_eq, if_pos hi, show a.toNat % 16384 = a.toNat - 0x8000 by omega]

/-- After BANK_DATA with latch 6 and `flag_p` clear, the first PRG window reads the written bank. -/
theorem exec_crPrg_after_bankData (hb : s.params.board = .mmc3) (sizes : SizesOk s.params) (hf : s.fault = none)
    (latch : s.mmc3.latch = 6#32) (flagP : s.mmc3.flagP = false) {b : BusAddr} (d : Byte) (lo : 0x8000 ≤ b.toNat)
    (hi : b.toNat < 0xA000) (ht : t = State.recompute { s with mmc3 := putBankData s.mmc3 d }) :
    exec (.crPrg b) t = .next (t.putReadData (some (prgRom s.params
      (d.toNat % (s.params.prgSize / 8192) * 8192 + (b.toNat - 0x8000))))) := by
  have params : t.params = s.params := by rw [ht]; rfl
  have regs : t.mmc3 = { s.mmc3 with prg := s.mmc3.prg.set 0 (zext32 d) } := by rw [ht, ← putBankData_latch6 latch]; rfl
  have follow : t.WindowsFollow := ht ▸ State.recompute_windowsFollow _
  have fault : t.fault = none := by rw [ht]; exact hf
  obtain ⟨k, size⟩ := sizes.prg_mmc3 hb
  have offset : prgOffset t b = d.toNat % (s.params.prgSize / 8192) * 8192 + (b.toNat - 0x8000) := by
    rw [prgOffset_mmc3 (params ▸ hb), mmc3PrgOffset_first (by rw [regs]; exact flagP) lo hi, params,
      bankIndex_of_size (by decide) size, regs, Vector.getElem_set_self, toNat_zext32]
  rw [← offset, ← params]
  exact exec_crPrg_closed fault (params ▸ sizes) follow ((bit15_iff b).2 lo)

/-- After a SIMPLE write, the low PRG window and the CHR window read the written banks. -/
theorem exec_reads_after_simpleWrite (hb : s.params.board = .simple) (sizes : SizesOk s.params) (hf : s.fault = none)
    (d : Byte) (ht : t = State.recompute { s with simple := { chrBank := fieldCB d, prgBank := fieldPB d } }) :
    (∀ b : BusAddr, 0x8000 ≤ b.toNat → b.toNat < 0xC000 →
      exec (.crPrg b) t = .next (t.putReadData (some (prgRom s.params
        (d.toNat / 4 % 16 % (s.params.prgSize / 16384) * 16384 + (b.toNat - 0x8000)))))) ∧
    ∀ b : PpuAddr, b < 0x2000#14 →
      exec (.prChr b) t = .next (t.putReadData (some (chrRead s
        (d.toNat % 4 % (s.params.chrSize / 8192) * 8192 + b.toNat)))) := by
  have params : t.params = s.params := by rw [ht]; rfl
  have regs : t.simple = { chrBank := fieldCB d, prgBank := fieldPB d } := by rw [ht]; rfl
  have follow : t.WindowsFollow := ht ▸ State.recompute_windowsFollow _
  have fault : t.fault = none := by rw [ht]; exact hf
  have bytes (o) : chrRead t o = chrRead s o := by rw [ht]; rfl
  obtain ⟨kp, prgSize⟩ := sizes.prg_simple hb
  obtain ⟨kc, chrSize⟩ := sizes.chr
  refine ⟨fun b lo hi => ?_, fun b h => ?_⟩
  · have offset : prgOffset t b =
        d.toNat / 4 % 16 % (s.params.prgSize / 16384) * 16384 + (b.toNat - 0x8000) := by
      rw [prgOffset_simple (params ▸ hb), simplePrgOffset_low _ _ lo hi, params,
        bankIndex_of_size (by decide) prgSize, regs, toNat_fieldPB]
    rw [← offset, ← params]
    exact exec_crPrg_closed fault (params ▸ sizes) follow ((bit15_iff b).2 lo)
  · have offset : chrOffset t b = d.toNat % 4 % (s.params.chrSize / 8192) * 8192 + b.toNat := by
      rw [chrOffset_simple (params ▸ hb), simpleChrOffset_eq _ _ h, params,
        bankIndex_of_size (by decide) chrSize, regs, toNat_fieldCB]
    rw [← offset, ← bytes]
    exact exec_prChr_closed fault (params ▸ sizes) follow h

/-- Settles O60: the closed forms of the written registers, the masks taken as remainders. -/
theorem bankWrittenIsTheBankRead : Obligations.BankWrittenIsTheBankRead := by
  refine fun s a d sizes hf => ⟨fun hb latch flagP => ?_, fun hb => ?_⟩
  · exact ⟨_, (exec_bankData a d).2 ⟨hf, (if_pos hb).symm⟩,
      fun b lo hi => exec_crPrg_after_bankData hb sizes hf latch flagP d lo hi rfl⟩
  · exact ⟨_, (exec_simpleWrite a d).2 ⟨hf, (if_pos hb).symm⟩, exec_reads_after_simpleWrite hb sizes hf d rfl⟩

/-- The mask of a count of banks is the number of the last bank where an `int32` can number it. -/
theorem bankIndex_last {count : Nat} (pos : 0 < count) (le : count ≤ 2 ^ 32) :
    bankIndex count (BitVec.ofNat 32 count - 1#32) = count - 1 := by
  have last : BitVec.ofNat 32 count - 1#32 = BitVec.ofNat 32 (count - 1) := by
    apply BitVec.eq_of_toNat_eq
    simp
    omega
  rw [bankIndex, last, BitVec.and_self, BitVec.toNat_ofNat, Nat.mod_eq_of_lt (by omega)]

theorem mmc3PrgReg_high (r : Mmc3Regs) : mmc3PrgReg r 3 = r.prg[3] := rfl

/-- Settles O47: the fourth PRG window maps `prg[3]`, whatever the other registers hold. -/
theorem mmc3HighWindowReadsTheLastBank : Obligations.Mmc3HighWindowReadsTheLastBank := by
  intro s a inv hf hb le last lo
  have hi := a.isLt
  obtain ⟨k, size⟩ := inv.sizes.prg_mmc3 hb
  have pos : 0 < 2 ^ k := Nat.two_pow_pos k
  have count : s.params.prgSize / 8192 = 2 ^ k := by rw [size]; exact Nat.mul_div_cancel_left _ (by decide)
  have offset : prgOffset s a = s.params.prgSize - 8192 + (a.toNat - 0xE000) := by
    rw [prgOffset_mmc3 hb, mmc3PrgOffset_eq, show a.toNat / 8192 % 4 = 3 by omega, mmc3PrgReg_high, last,
      bankIndex_last (by omega) (by omega)]
    omega
  rw [← offset]
  exact exec_crPrg_closed hf inv.sizes inv.windows ((bit15_iff a).2 (by omega))

end Sys2Proof.Machine

/-!
PROOF. Each operation's meaning on a board with no fault recorded (spec/43_mmc3_registers.md, spec/45_simple_switcher.md,
spec/42_board_dispatch.md, spec/70_reset_and_hazards.md), and that a recorded fault stops every operation (R33, R303).
-/

namespace Sys2Proof.Machine

variable {s t : State}

/-! ### The fault mark -/

/-- Every instruction runs behind the fault mark, and completes there. -/
theorem exec_eq_running (i : Instr) : ∃ f : State → State, ∀ s, exec i s = running s fun s => .next (f s) := by
  cases i <;> exact ⟨_, fun _ => rfl⟩

theorem exec_of_fault {f : Fault} (h : s.fault = some f) (i : Instr) : exec i s = .fault f := by
  obtain ⟨g, guarded⟩ := exec_eq_running i
  rw [guarded, running_of_some h]

theorem exec_completes (hf : s.fault = none) (i : Instr) : ∃ t, exec i s = .next t := by
  obtain ⟨g, guarded⟩ := exec_eq_running i
  exact ⟨g s, by rw [guarded, running_of_none hf]⟩

/-- Settles O40: a step is an instruction, an address sample or nothing, each behind the fault mark. -/
theorem faultedBoardHasNoStep : Obligations.FaultedBoardHasNoStep := by
  refine fun s f h => ⟨exec_of_fault h, ?_⟩
  rcases step_cases s with ⟨-, e⟩ | ⟨o, rest, -, e⟩ | ⟨a, rest, -, e⟩ <;> rw [e]
  · exact running_of_some h _
  · exact exec_of_fault (s := s.putPending rest) h _
  · exact running_of_some (s := s.putPending rest) h _

/-! ### The bank registers of MMC3 -/

theorem fieldR_eq (d : Byte) : fieldR d = zext32 (d &&& 7#8) := by
  have mask : d.toNat &&& 7 = d.toNat % 8 := Nat.and_two_pow_sub_one_eq_mod d.toNat 3
  refine BitVec.eq_of_toNat_eq ?_
  rw [toNat_zext32, fieldR, BitVec.toNat_setWidth_of_le (by decide), toNat_extractLow, BitVec.toNat_and]
  exact mask.symm

/-- Settles O6: the fields of the byte are the bits the statement names. -/
theorem bankSelectWritesLatchAndFlags : Obligations.BankSelectWritesLatchAndFlags :=
  fun a d _ hf hb => (exec_bankSelect a d).2 ⟨hf, by rw [if_pos hb, fieldR_eq, fieldP, fieldC]⟩

theorem exec_bankData_of_put {r : Mmc3Regs} {d : Byte} (hf : s.fault = none) (hb : s.params.board = .mmc3)
    (a : BusAddr) (put : putBankData s.mmc3 d = r) :
    exec (.bankData a d) s = .next (State.recompute { s with mmc3 := r }) :=
  (exec_bankData a d).2 ⟨hf, by rw [if_pos hb, put]⟩

theorem putBankData_chr {r : Mmc3Regs} (k : Fin 6) (h : r.latch = BitVec.ofNat 32 k.val) (d : Byte) :
    putBankData r d = { r with chr := r.chr.set k (zext32 d) } := by
  match k, h with
  | 0, h | 1, h | 2, h | 3, h | 4, h | 5, h => simp [putBankData, h]

theorem putBankData_latch7 {r : Mmc3Regs} (h : r.latch = 7#32) (d : Byte) :
    putBankData r d = { r with prg := r.prg.set 1 (zext32 d) } := by
  simp [putBankData, h]

/-- A latch above 7 selects no register (R163). -/
theorem putBankData_above {r : Mmc3Regs} (h : 7 < r.latch.toNat) (d : Byte) : putBankData r d = r := by
  have ne : ∀ k, k ≤ 7 → r.latch ≠ BitVec.ofNat 32 k := by
    intro k hk e
    rw [e, BitVec.toNat_ofNat] at h
    omega
  simp [putBankData, ne]

/-- Settles O7: one case per latch value. -/
theorem bankDataWritesTheSelectedRegister : Obligations.BankDataWritesTheSelectedRegister := by
  intro a d s hf hb
  refine ⟨fun k latch => ?_, fun latch => ?_, fun latch => ?_, fun latch => ?_⟩
  · exact exec_bankData_of_put hf hb a (putBankData_chr k latch d)
  · exact exec_bankData_of_put hf hb a (putBankData_latch6 latch d)
  · exact exec_bankData_of_put hf hb a (putBankData_latch7 latch d)
  · exact exec_bankData_of_put hf hb a (putBankData_above latch d)

/-! ### The other register writes -/

theorem fieldM_eq (d : Byte) : fieldM d = if d &&& 1#8 = 1#8 then .horizontal else .vertical := by
  rw [BitVec.and_one_eq_setWidth_ofBool_getLsbD, fieldM, ← BitVec.getLsbD_eq_getElem]
  cases d.getLsbD 0 <;> rfl

/-- Settles O8: the write sets the mode by field M unless the wiring is Full. -/
theorem mirroringWriteHonoursTheWiring : Obligations.MirroringWriteHonoursTheWiring := by
  refine fun a d s hf hb => (exec_mirroring a d).2 ⟨hf, ?_⟩
  rw [if_pos hb, fieldM_eq]
  by_cases full : s.params.wired = .full
  · rw [if_pos full, if_pos full]
  · rw [if_neg full, if_neg full]

/-- Settles O11: on MMC3 the write is its own arm of `exec`. -/
theorem irqClearZeroesTheCounter : Obligations.IrqClearZeroesTheCounter :=
  fun a d _ hf hb => (exec_irqClear a d).2 ⟨hf, by rw [if_pos hb, zeroCounter_eq]⟩

theorem fieldCB_eq (d : Byte) : fieldCB d = BitVec.ofNat 32 (d.toNat % 4) := by
  rw [← toNat_fieldCB, BitVec.ofNat_toNat, BitVec.setWidth_eq]

theorem fieldPB_eq (d : Byte) : fieldPB d = BitVec.ofNat 32 (d.toNat / 4 % 16) := by
  rw [← toNat_fieldPB, BitVec.ofNat_toNat, BitVec.setWidth_eq]

/-- Settles O14: the fields of the byte as numbers. -/
theorem simpleWriteSetsBothBanks : Obligations.SimpleWriteSetsBothBanks :=
  fun a d _ hf hb => (exec_simpleWrite a d).2 ⟨hf, by rw [if_pos hb, fieldCB_eq, fieldPB_eq]⟩

/-- Settles O15: each register write is guarded by its own board. -/
theorem otherVariantsWritesAreNoOps : Obligations.OtherVariantsWritesAreNoOps := by
  refine fun a d s hf => ⟨fun hb => ?_, fun hb => ?_⟩
  · have other (u : State) : s = if s.params.board = .mmc3 then u else s := (if_neg (by simp [hb])).symm
    exact ⟨(exec_bankSelect a d).2 ⟨hf, other _⟩, (exec_bankData a d).2 ⟨hf, other _⟩,
      (exec_mirroring a d).2 ⟨hf, other _⟩, (exec_irqReload a d).2 ⟨hf, other _⟩, (exec_irqClear a d).2 ⟨hf, other _⟩,
      (exec_irqDisable a d).2 ⟨hf, other _⟩, (exec_irqEnable a d).2 ⟨hf, other _⟩⟩
  · exact (exec_simpleWrite a d).2 ⟨hf, (if_neg (by simp [hb])).symm⟩

/-! ### Reads without a window, and ACK -/

theorem exec_crOpenBus_of_none (hf : s.fault = none) (a : BusAddr) :
    exec (.crOpenBus a) s = .next { s with readData := some Config.openBus } :=
  (exec_crOpenBus a).2 ⟨hf, rfl⟩

/-- Settles O17: an address below $8000 decodes to CR_OPEN_BUS. -/
theorem cpuReadBelow8000ReturnsOpenBus : Obligations.CpuReadBelow8000ReturnsOpenBus := by
  refine fun s a hf low => ⟨?_, exec_crOpenBus_of_none hf a⟩
  rw [decode, decodeCpuRead, if_neg (by simp [bit15_eq_false_of_lt low])]
  exact exec_crOpenBus_of_none hf a

/-- Settles O19: the operation's own arm of `exec`. -/
theorem unservedPpuReadReturnsNothing : Obligations.UnservedPpuReadReturnsNothing :=
  fun _ a hf => (exec_prNotServed a).2 ⟨hf, rfl⟩

/-- Settles O27: the operation's own arm of `exec`. -/
theorem ackClearsTheInterruptBit : Obligations.AckClearsTheInterruptBit :=
  fun _ hf => exec_ack.2 ⟨hf, rfl⟩

/-! ### Hard reset and construction -/

theorem resetMmc3_eq (p : Params) :
    resetMmc3 p =
      { flagC := false, flagP := false, latch := 0, chr := Vector.replicate 6 0,
        prg := #v[0, 1, BitVec.ofNat 32 (p.prgSize / 8192) - 2, BitVec.ofNat 32 (p.prgSize / 8192) - 1],
        irqEnabled := false, irqCounter := 0, priorIrqCounter := 0, irqReload := 255, irqClearPending := false } := by
  have lastButOne : m8P p - 1 = BitVec.ofNat 32 (p.prgSize / 8192) - 2 := by
    rw [m8P, BitVec.sub_sub]
    rfl
  rw [resetMmc3, lastButOne]
  rfl

/-- Settles O29: the reset of the MMC3 set, and the frame of a hard reset. -/
theorem hardResetOfMmc3 : Obligations.HardResetOfMmc3 := by
  intro s hf hb
  obtain ⟨mmc3, simple⟩ := hardReset_mmc3 hb
  refine exec_reset.2 ⟨hf, ?_⟩
  rw [hardReset_frame, mmc3, simple, resetMmc3_eq]
  rfl

/-- Settles O30: the reset of the SIMPLE set, and the frame of a hard reset. -/
theorem hardResetOfSimple : Obligations.HardResetOfSimple := by
  intro s hf hb
  obtain ⟨mmc3, simple⟩ := hardReset_simple hb
  refine exec_reset.2 ⟨hf, ?_⟩
  rw [hardReset_frame, mmc3, simple]
  rfl

/-- A second hard reset changes nothing: the values are constants of the parameters. -/
@[simp] theorem hardReset_hardReset (s : State) : hardReset (hardReset s) = hardReset s := by
  cases hb : s.params.board <;> simp [hardReset, hb, State.recompute]

@[simp] theorem hardReset_fault (s : State) : (hardReset s).fault = s.fault := by
  rw [hardReset_frame]

@[simp] theorem hardReset_chrRam (s : State) : (hardReset s).chrRam = s.chrRam := by
  rw [hardReset_frame]

/-- Settles O31: a hard reset of a board just reset is that board. -/
theorem hardResetIsIdempotent : Obligations.HardResetIsIdempotent := by
  intro s t h
  obtain ⟨hf, rfl⟩ := exec_reset.1 h
  exact exec_reset.2 ⟨(hardReset_fault s).trans hf, (hardReset_hardReset s).symm⟩

/-- The unit of the statement is the variant's. -/
theorem prgUnit_eq (b : Board) : (match b with | .mmc3 => 8192 | .simple => 16384) = prgUnit b := by
  cases b <;> rfl

theorem prgUnit_pos (b : Board) : 0 < prgUnit b := by
  cases b <;> decide

theorem prgSize_test_iff (p : Params) :
    unitTimesPowerOfTwo (prgUnit p.board) p.prgSize = true ↔ ∃ k, p.prgSize = prgUnit p.board * 2 ^ k :=
  unitTimesPowerOfTwo_iff (prgUnit_pos _) _

theorem chrSize_test_iff (p : Params) : unitTimesPowerOfTwo 8192 p.chrSize = true ↔ ∃ k, p.chrSize = 8192 * 2 ^ k :=
  unitTimesPowerOfTwo_iff (by decide) _

/-- Settles O32: the two tests in order, then a board just reset. -/
theorem constructionChecksSizesAndResets : Obligations.ConstructionChecksSizesAndResets := by
  intro p unit
  have hu : unit = prgUnit p.board := prgUnit_eq p.board
  simp only [hu, ← prgSize_test_iff, ← chrSize_test_iff]
  refine ⟨fun prg => ?_, fun prg chr => ?_, fun prg chr => ?_⟩
  · simp [construct, prg]
  · simp [construct, prg, chr]
  · refine ⟨hardReset (unreset p), construct_eq_next.2 ⟨prg, chr, rfl⟩, hardReset_params _, hardReset_fault _,
      fun ram => ?_, exec_reset.2 ⟨hardReset_fault _, (hardReset_hardReset _).symm⟩⟩
    rw [hardReset_chrRam]
    exact if_pos ram

end Sys2Proof.Machine

/-!
PROOF. The state codec (spec/46_state_codec.md): what SAVE appends (R252, R253), what LOAD reads (R256, R257, R259), and the
round-trip law (R262).
-/

namespace Sys2Proof.Machine

variable {s t : State}

/-! ### The field encodings as numbers -/

theorem int32Bytes_eq (w : Word) :
    int32Bytes w = [BitVec.ofNat 8 w.toNat, BitVec.ofNat 8 (w.toNat / 256), BitVec.ofNat 8 (w.toNat / 65536),
      BitVec.ofNat 8 (w.toNat / 16777216)] := by
  have byte (k : Nat) : w.extractLsb' k 8 = BitVec.ofNat 8 (w.toNat / 2 ^ k) := by
    rw [← Nat.shiftRight_eq_div_pow]
    rfl
  simp only [int32Bytes, byte]
  norm_num

/-- Bytes put together are the number they write in base 256 (R251, R256). -/
theorem toNat_append_byte {n : Nat} (x : BitVec n) (y : Byte) : (x ++ y).toNat = x.toNat * 256 + y.toNat := by
  rw [BitVec.toNat_append, ← Nat.shiftLeft_add_eq_or_of_lt y.isLt, Nat.shiftLeft_eq]

theorem int32At_eq (b : List Byte) (o : Nat) :
    int32At b o = BitVec.ofNat 32 ((b.getD o 0).toNat + 256 * (b.getD (o + 1) 0).toNat
      + 65536 * (b.getD (o + 2) 0).toNat + 16777216 * (b.getD (o + 3) 0).toNat) := by
  have number : (int32At b o).toNat = (b.getD o 0).toNat + 256 * (b.getD (o + 1) 0).toNat
      + 65536 * (b.getD (o + 2) 0).toNat + 16777216 * (b.getD (o + 3) 0).toNat := by
    simp only [int32At, toNat_append_byte, byteAt]
    omega
  rw [← number, BitVec.ofNat_toNat, BitVec.setWidth_eq]

theorem boolAt_eq (b : List Byte) (o : Nat) : boolAt b o = decide (b.getD o 0 ≠ 0) := by
  rw [Bool.eq_iff_iff]
  simp [boolAt, byteAt]

/-! ### SAVE -/

/-- Settles O33: the layout field by field. -/
theorem saveAppendsTheMmc3Layout : Obligations.SaveAppendsTheMmc3Layout := by
  intro s hf hb le bl r
  refine exec_save.2 ⟨hf, ?_⟩
  have layout : saveBytes s = saveMmc3 r := by simp [saveBytes, hb, r]
  have field (w : Word) : int32Bytes w = le w := int32Bytes_eq w
  rw [layout, saveMmc3]
  simp [field, boolBytes, bl]

/-- Settles O34: the layout field by field. -/
theorem saveAppendsTheSimpleLayout : Obligations.SaveAppendsTheSimpleLayout := by
  intro s hf hb le
  refine exec_save.2 ⟨hf, ?_⟩
  have layout : saveBytes s = le s.simple.chrBank ++ le s.simple.prgBank := by
    simp [saveBytes, hb, saveSimple, int32Bytes_eq, le]
  rw [layout, List.append_assoc]

theorem saveBytes_length (s : State) : (saveBytes s).length = layoutSize s.params.board := by
  unfold saveBytes
  cases s.params.board
  · exact saveMmc3_length s.mmc3
  · exact saveSimple_length s.simple

/-! ### LOAD -/

/-- A stream that is long enough is loaded (R256 to R258). -/
theorem exec_load_of_enough {b : List Byte} (hf : s.fault = none) (enough : layoutSize s.params.board ≤ b.length) :
    exec (.load b) s =
      .next { (loadRegs b s).recompute with unread := b.drop (layoutSize s.params.board) } := by
  refine (exec_load b).2 ⟨hf, ?_⟩
  rcases loadStream_cases b s with ⟨short, -⟩ | ⟨-, e⟩
  · exact absurd short (Nat.not_lt.2 enough)
  · exact e.symm

/-- A stream that is too short raises the underrun (R259). -/
theorem exec_load_of_short {b : List Byte} (hf : s.fault = none) (short : b.length < layoutSize s.params.board) :
    exec (.load b) s = .next (s.raise (.codecUnderrun (layoutSize s.params.board) b.length)) := by
  refine (exec_load b).2 ⟨hf, ?_⟩
  rcases loadStream_cases b s with ⟨-, e⟩ | ⟨enough, -⟩
  · exact e.symm
  · exact absurd short (Nat.not_lt.2 enough)

/-- Settles O35: the registers of the stream field by field. -/
theorem loadReadsTheMmc3Layout : Obligations.LoadReadsTheMmc3Layout := by
  intro s b hf hb enough at' i32
  have size : layoutSize s.params.board = 54 := by rw [hb]; rfl
  have word (o : Nat) : int32At b o = i32 o := int32At_eq b o
  have flag (o : Nat) : boolAt b o = decide (at' o ≠ 0) := boolAt_eq b o
  obtain ⟨mmc3, simple⟩ := loadRegs_mmc3 hb b
  rw [exec_load_of_enough hf (size ▸ enough), loadRegs_frame, mmc3, simple, size, loadMmc3]
  simp only [word, flag]
  rfl

/-- Settles O36: the registers of the stream field by field. -/
theorem loadReadsTheSimpleLayout : Obligations.LoadReadsTheSimpleLayout := by
  intro s b hf hb enough at' i32
  have size : layoutSize s.params.board = 8 := by rw [hb]; rfl
  have word (o : Nat) : int32At b o = i32 o := int32At_eq b o
  obtain ⟨mmc3, simple⟩ := loadRegs_simple hb b
  rw [exec_load_of_enough hf (size ▸ enough), loadRegs_frame, mmc3, simple, size, loadSimple]
  simp only [word]
  rfl

/-- Settles O37: a short stream raises the underrun with the variant's layout size. -/
theorem shortLoadRaisesUnderrun : Obligations.ShortLoadRaisesUnderrun := by
  refine fun s b hf => ⟨fun hb short => ?_, fun hb short => ?_⟩
  · have size : layoutSize s.params.board = 54 := by rw [hb]; rfl
    rw [exec_load_of_short hf (size ▸ short), size]
    rfl
  · have size : layoutSize s.params.board = 8 := by rw [hb]; rfl
    rw [exec_load_of_short hf (size ▸ short), size]
    rfl

/-! ### The round trip -/

/-- Loading what a board of the same variant saved gives its registers, where the absent variant's sets agree. -/
theorem loadRegs_saveBytes (board : s.params.board = t.params.board)
    (absentSimple : t.params.board = .mmc3 → t.simple = s.simple)
    (absentMmc3 : t.params.board = .simple → t.mmc3 = s.mmc3) :
    (loadRegs (saveBytes s) t).mmc3 = s.mmc3 ∧ (loadRegs (saveBytes s) t).simple = s.simple := by
  cases hb : t.params.board
  case mmc3 =>
    obtain ⟨mmc3, simple⟩ := loadRegs_mmc3 hb (saveBytes s)
    have layout : saveBytes s = saveMmc3 s.mmc3 := by simp [saveBytes, board, hb]
    rw [mmc3, simple, layout, loadMmc3_saveMmc3]
    exact ⟨rfl, absentSimple hb⟩
  case simple =>
    obtain ⟨mmc3, simple⟩ := loadRegs_simple hb (saveBytes s)
    have layout : saveBytes s = saveSimple s.simple := by simp [saveBytes, board, hb]
    rw [mmc3, simple, layout, loadSimple_saveSimple]
    exact ⟨absentMmc3 hb, rfl⟩

/-- Two boards of one variant that meet the invariant have the same blank set of the other, after a hard reset too. -/
theorem Inv.absent_eq {A B : State} (invA : Inv A) (invB : Inv B) (board : A.params.board = B.params.board) :
    (B.params.board = .mmc3 → (hardReset B).simple = A.simple) ∧
      (B.params.board = .simple → (hardReset B).mmc3 = A.mmc3) := by
  refine ⟨fun hb => ?_, fun hb => ?_⟩
  · rw [(hardReset_mmc3 hb).2, invB.noSimple hb, invA.noSimple (board.trans hb)]
  · rw [(hardReset_simple hb).1, invB.noMmc3 hb, invA.noMmc3 (board.trans hb)]

/-- Settles O38: the codec is read back field by field, and the windows are a function of the registers and the sizes. -/
theorem saveLoadReproducesTheBoard : Obligations.SaveLoadReproducesTheBoard := by
  intro A B invA invB hfA hfB board prgSize chrSize
  have reset := hardReset_params B
  have enough : layoutSize (hardReset B).params.board = (saveBytes A).length := by rw [saveBytes_length, reset, board]
  obtain ⟨absentSimple, absentMmc3⟩ := invA.absent_eq invB board
  obtain ⟨mmc3, simple⟩ := loadRegs_saveBytes (s := A) (t := hardReset B) (reset ▸ board) (reset ▸ absentSimple)
    (reset ▸ absentMmc3)
  have params : (loadRegs (saveBytes A) (hardReset B)).params = B.params := by rw [loadRegs_params, reset]
  have fault : (loadRegs (saveBytes A) (hardReset B)).fault = none := by
    rw [loadRegs_frame]
    exact (hardReset_fault B).trans hfB
  have windows : (loadRegs (saveBytes A) (hardReset B)).recompute.windows = A.windows := by
    rw [State.recompute_windows, params, mmc3, simple, invA.windows]
    exact windowTable_congr board.symm prgSize.symm chrSize.symm ..
  refine ⟨_, hardReset B, _, saveBytes A, exec_save.2 ⟨hfA, rfl⟩, rfl, exec_reset.2 ⟨hfB, rfl⟩,
    exec_load_of_enough ((hardReset_fault B).trans hfB) enough.le, mmc3, simple, windows, fault, params, ?_, ?_, ?_, ?_,
    fun same => ⟨params ▸ same, mmc3.symm, simple.symm, windows.symm, hfA.trans fault.symm⟩⟩
  · exact (loadRegs_mirroring _ _).trans (hardReset_mirroring B)
  · exact (loadRegs_irqBoard _ _).trans (hardReset_irqBoard B)
  · show (loadRegs (saveBytes A) (hardReset B)).chrRam = B.chrRam
    rw [loadRegs_frame]
    exact hardReset_chrRam B
  · exact List.drop_eq_nil_of_le enough.ge

end Sys2Proof.Machine

/-!
PROOF. The invariant of a constructed board (spec/10_state.md section 5, spec/41_bank_window.md masking property): every
construction gives it, every step keeps it, and under it only a LOAD of a short stream traps.
-/

namespace Sys2Proof.Machine

variable {s t : State}

/-! ### Which operations record a fault -/

theorem exec_next_unique {i : Instr} {u : State} (h : exec i s = .next t) (h' : exec i s = .next u) : t = u :=
  Host.Outcome.next.inj (h.symm.trans h')

/-- Under the invariant an instruction the decode can give records no fault, but for a LOAD of a short stream. -/
theorem exec_fault {i : Instr} (inv : Inv s) (wf : WellFormed s.params i) (h : exec i s = .next t) :
    t.fault = none ∨ ∃ needed available, t.fault = some (.codecUnderrun needed available) ∧
      ∃ b, i = .load b ∧ b.length < layoutSize s.params.board := by
  obtain ⟨hf, e⟩ := exec_effect h
  cases e with
  | crPrgOut a =>
    have served := exec_crPrg_closed hf inv.sizes inv.windows wf
    exact .inl ((congrArg State.fault (exec_next_unique h served)).trans hf)
  | prChrOut a =>
    have served := exec_prChr_closed hf inv.sizes inv.windows (of_decide_eq_true wf)
    exact .inl ((congrArg State.fault (exec_next_unique h served)).trans hf)
  | pwChrOut a d =>
    obtain ⟨u, served, fault⟩ : ∃ u, exec (.pwChr a d) s = .next u ∧ u.fault = none :=
      ⟨_, exec_pwChr_of_offset d hf (windowOffset_chr inv.sizes inv.windows (of_decide_eq_true wf)), by
        split <;> exact hf⟩
    exact .inl ((congrArg State.fault (exec_next_unique h served)).trans fault)
  | loadShort b _ short => exact .inr ⟨_, _, rfl, b, rfl, short⟩
  | reset => exact .inl ((hardReset_fault s).trans hf)
  | load b =>
    rw [loadRegs_frame]
    exact .inl hf
  | _ => exact .inl hf

/-- Settles O41: every instruction runs behind the fault mark, and the faults are those of `exec_fault`. -/
theorem everyOperationCompletes : Obligations.EveryOperationCompletes := by
  intro s i hf
  obtain ⟨t, h⟩ := exec_completes hf i
  refine ⟨t, h, fun inv wf long => ?_⟩
  rcases exec_fault inv wf h with fault | ⟨-, -, -, b, rfl, short⟩
  · exact fault
  · exact absurd short (Nat.not_lt.2 (long b rfl))

theorem exec_inBounds {i : Instr} (inv : Inv s) (wf : WellFormed s.params i) (h : exec i s = .next t)
    (space : Space) (w : Option Window) (a : Nat) : t.fault ≠ some (.outOfBounds space w a) := by
  rcases exec_fault inv wf h with fault | ⟨n, m, fault, -⟩ <;> rw [fault] <;> simp

/-! ### Every move keeps the invariant -/

theorem not_simple_of_mmc3 {p : Params} (mmc3 : p.board = .mmc3) : p.board ≠ .simple := by
  simp [mmc3]

/-- The CHR RAM stays listed inside its image, and empty on a ROM board. -/
theorem Effect.ram {i : Instr} (e : Effect i s t) (inv : Inv s) :
    ImageOk t.chrRam s.params.chrSize ∧ (s.params.chrIsRam = false → t.chrRam = []) := by
  have same : ImageOk s.chrRam s.params.chrSize ∧ (s.params.chrIsRam = false → s.chrRam = []) :=
    ⟨inv.ram, inv.romHasNoRam⟩
  cases e with
  | pwChr a d _ o ram lt =>
    exact ⟨Memory.write_imageOk inv.ram lt d, fun rom => absurd ram (by simp [rom])⟩
  | reset => rwa [← hardReset_chrRam s] at same
  | load b =>
    rw [loadRegs_frame]
    exact same
  | _ => exact same

/-- The mode stays the wired one on a SIMPLE board and under Full wiring. -/
theorem Effect.fixedMode {i : Instr} (e : Effect i s t) (inv : Inv s)
    (fixed : s.params.board = .simple ∨ s.params.wired = .full) : t.mirroring = s.params.wired := by
  have same := inv.fixedMode fixed
  cases e with
  | mirroring a d _ board wired =>
    rcases fixed with simple | full
    · exact absurd simple (not_simple_of_mmc3 board)
    · exact absurd full wired
  | reset => exact hardReset_mirroring s
  | load b => exact (loadRegs_mirroring b s).trans same
  | _ => exact same

/-- On SIMPLE the interrupt bit stays clear: only an edge on MMC3 sets it. -/
theorem Effect.quiet {i : Instr} (e : Effect i s t) (hb : s.params.board = .simple) (quiet : s.irqBoard = false) :
    t.irqBoard = false := by
  rw [Bool.eq_false_iff]
  intro set
  rcases e.irqBoard_of_set set with before | ⟨-, mmc3, -⟩
  · exact Bool.false_ne_true (quiet.symm.trans before)
  · exact not_simple_of_mmc3 mmc3 hb

/-- On MMC3 the SIMPLE set is never written. -/
theorem Effect.simple_eq {i : Instr} (e : Effect i s t) (hb : s.params.board = .mmc3) : t.simple = s.simple := by
  cases e with
  | simpleWrite a d _ board => exact absurd board (not_simple_of_mmc3 hb)
  | reset => exact (hardReset_mmc3 hb).2
  | load b => exact (loadRegs_mmc3 hb b).2
  | _ => rfl

/-- On SIMPLE the MMC3 set is never written. -/
theorem Effect.mmc3_eq {i : Instr} (e : Effect i s t) (hb : s.params.board = .simple) : t.mmc3 = s.mmc3 := by
  cases e with
  | bankSelect _ _ _ board | bankData _ _ _ board | irqReload _ _ _ board | irqClear _ _ _ board
  | irqDisable _ _ _ board | irqEnable _ _ _ board | a12 _ board => exact absurd hb (not_simple_of_mmc3 board)
  | reset => exact (hardReset_simple hb).1
  | load b => exact (loadRegs_simple hb b).1
  | _ => rfl

/-- Every move keeps the invariant where it raised no out-of-bounds fault. -/
theorem Effect.inv {i : Instr} (e : Effect i s t) (inv : Inv s)
    (inBounds : ∀ space w a, t.fault ≠ some (.outOfBounds space w a)) : Inv t := by
  have params := e.params_eq
  refine { sizes := ?_, lists := ?_, windows := e.windowsFollow inv.windows, ram := ?_, romHasNoRam := ?_,
           fixedMode := ?_, quiet := ?_, noSimple := ?_, noMmc3 := ?_, inBounds := inBounds } <;> rw [params]
  · exact inv.sizes
  · exact inv.lists
  · exact (e.ram inv).1
  · exact (e.ram inv).2
  · exact e.fixedMode inv
  · exact fun hb => e.quiet hb (inv.quiet hb)
  · exact fun hb => (e.simple_eq hb).trans (inv.noSimple hb)
  · exact fun hb => (e.mmc3_eq hb).trans (inv.noMmc3 hb)

theorem exec_inv {i : Instr} (inv : Inv s) (wf : WellFormed s.params i) (h : exec i s = .next t) : Inv t :=
  (exec_effect h).2.inv inv (exec_inBounds inv wf h)

/-! ### Every step keeps the invariant -/

theorem Inv.putPending (inv : Inv s) (l : List HostInput) : Inv (s.putPending l) :=
  ⟨inv.sizes, inv.lists, inv.windows, inv.ram, inv.romHasNoRam, inv.fixedMode, inv.quiet, inv.noSimple, inv.noMmc3,
    inv.inBounds⟩

theorem Inv.putDetector (inv : Inv s) (e : EdgeDetector) : Inv { s with detector := e } :=
  ⟨inv.sizes, inv.lists, inv.windows, inv.ram, inv.romHasNoRam, inv.fixedMode, inv.quiet, inv.noSimple, inv.noMmc3,
    inv.inBounds⟩

theorem sampleAddress_inv {a : PpuAddr} (inv : Inv s) (h : sampleAddress a s = .next t) : Inv t := by
  obtain ⟨-, ⟨-, edge⟩ | ⟨-, rfl⟩⟩ := sampleAddress_cases h
  · exact exec_inv (inv.putDetector _) rfl edge
  · exact inv.putDetector _

/-- Settles O51: a step runs an instruction the decode gives, or an edge, and each keeps the invariant. -/
theorem stepKeepsTheInvariant : Obligations.StepKeepsTheInvariant := by
  intro s t inv h
  rcases step_cases s with ⟨-, e⟩ | ⟨o, rest, -, e⟩ | ⟨a, rest, -, e⟩ <;> rw [e] at h
  · obtain ⟨-, rfl⟩ := (running_next_eq_next (f := id)).1 h
    exact inv
  · exact exec_inv (inv.putPending rest) (decode_wellFormed s.params o) h
  · exact sampleAddress_inv (inv.putPending rest) h

/-! ### Construction -/

theorem hardReset_recompute (s : State) : hardReset s.recompute = hardReset s := by
  cases hb : s.params.board <;> simp [hardReset, hb, State.recompute]

/-- The board before its reset meets the invariant once its windows are computed. -/
theorem unreset_recompute_inv {p : Params} (sizes : SizesOk p) (lists : ListsOk p) : Inv (unreset p).recompute where
  sizes := sizes
  lists := lists
  windows := rfl
  ram := by
    show ImageOk (if p.chrIsRam then p.chrRamInit else []) p.chrSize
    split
    · exact lists.chrInit
    · exact ⟨.nil, fun c hc => absurd hc List.not_mem_nil⟩
  romHasNoRam := fun (rom : p.chrIsRam = false) => if_neg (by simp [rom])
  fixedMode := fun _ => rfl
  quiet := fun _ => rfl
  noSimple := fun _ => rfl
  noMmc3 := fun _ => rfl
  inBounds := fun _ _ _ h => by cases h

/-- Settles O50: the reset of the construction is a move that keeps the invariant. -/
theorem constructedBoardMeetsTheInvariant : Obligations.ConstructedBoardMeetsTheInvariant := by
  intro p s lists h
  obtain ⟨prg, chr, rfl⟩ := construct_eq_next.1 h
  have inv := unreset_recompute_inv ⟨(prgSize_test_iff p).1 prg, (chrSize_test_iff p).1 chr⟩ lists
  rw [← hardReset_recompute]
  exact (Effect.reset _).inv inv (by simp [unreset])

/-- Settles O49: the reset state is the constructed board of the default parameters. -/
theorem resetStateMeetsTheInvariant : Obligations.ResetStateMeetsTheInvariant := by
  have empty (size : Nat) : ImageOk [] size := ⟨.nil, fun c hc => absurd hc List.not_mem_nil⟩
  exact constructedBoardMeetsTheInvariant defaultParams State.reset ⟨empty _, empty _, empty _⟩ construct_defaultParams

end Sys2Proof.Machine

/-!
PROOF. What an operation changes and what it leaves (spec/20_memory.md section 4, spec/10_state.md sections 2, 3 and 8,
spec/44_irq_timer.md section 3, spec/60_exceptions.md section 2), read off the moves of `Effect`.
-/

namespace Sys2Proof.Machine

variable {s t : State}

/-! ### The interrupt bit and the timer's states -/

theorem edgeAsserts_irqEdge_iff (s : State) :
    edgeAsserts s.params.altIrq (edgeCount s.mmc3) = true ↔
      (s.params.altIrq = false ∨ s.mmc3.irqCounter ≠ 0 ∨ s.mmc3.irqClearPending = true) ∧
        (irqEdge s).mmc3.irqCounter = 0 ∧ s.mmc3.irqEnabled = true :=
  edgeAsserts_edgeCount_iff s.params.altIrq s.mmc3

/-- Settles O25: a set bit was set before or is an edge's (`Effect.irqBoard_of_set`), and an edge sets it where it asserts. -/
theorem interruptIsSetOnlyByAnEdge : Obligations.InterruptIsSetOnlyByAnEdge := by
  intro s t i h clear set
  rcases (exec_effect h).2.irqBoard_of_set set with before | ⟨rfl, board, rfl⟩
  · exact absurd (clear.symm.trans before) (by decide)
  · have asserts : edgeAsserts s.params.altIrq (edgeCount s.mmc3) = true := by
      rw [irqEdge_irqBoard, clear] at set
      simpa using set
    obtain ⟨-, zero, enabled⟩ := (edgeAsserts_irqEdge_iff s).1 asserts
    exact ⟨rfl, board, enabled, zero⟩

/-- A clear bit was clear before, or the move is one of the three that clear it. -/
theorem Effect.irqBoard_of_clear {i : Instr} (e : Effect i s t) (clear : t.irqBoard = false) :
    s.irqBoard = false ∨ i = .ack ∨ i = .reset ∨ ∃ a d, i = .irqDisable a d := by
  cases e with
  | ack => exact .inr (.inl rfl)
  | reset => exact .inr (.inr (.inl rfl))
  | irqDisable a d => exact .inr (.inr (.inr ⟨a, d, rfl⟩))
  | a12 => exact .inl (Bool.or_eq_false_iff.1 clear).1
  | load b => exact .inl ((loadRegs_irqBoard b s).symm.trans clear)
  | _ => exact .inl clear

/-- Settles O26: the edge only adds to the bit, and every move but three keeps it. -/
theorem interruptIsClearedOnlyByAcknowledge : Obligations.InterruptIsClearedOnlyByAcknowledge := by
  intro s t i h set clear
  rcases (exec_effect h).2.irqBoard_of_clear clear with before | writer
  · exact absurd (set.symm.trans before) (by decide)
  · exact writer

theorem timerPhase_of_set (h : s.irqBoard = true) : timerPhase s = .fired := by
  simp [timerPhase, h]

theorem timerPhase_of_clear (h : s.irqBoard = false) :
    timerPhase s = if s.mmc3.irqEnabled then .armed else .idle := by
  simp [timerPhase, h]

/-- The state is read from the interrupt bit and the enabled flag alone (R212). -/
theorem timerPhase_congr (bit : t.irqBoard = s.irqBoard) (enabled : t.mmc3.irqEnabled = s.mmc3.irqEnabled) :
    timerPhase t = timerPhase s := by
  simp only [timerPhase, bit, enabled]

/-- An edge moves Armed to Fired where the counter ends at 0 and the revision's condition holds, and else keeps the state. -/
theorem timerPhase_irqEdge (s : State) :
    timerPhase (irqEdge s) =
      if timerPhase s = .armed ∧ (irqEdge s).mmc3.irqCounter = 0 ∧
          (s.params.altIrq = false ∨ s.mmc3.irqCounter ≠ 0 ∨ s.mmc3.irqClearPending = true) then .fired
      else timerPhase s := by
  have bit := irqEdge_irqBoard s
  have enabled : (irqEdge s).mmc3.irqEnabled = s.mmc3.irqEnabled := rfl
  cases hi : s.irqBoard
  case true =>
    have set : (irqEdge s).irqBoard = true := by rw [bit, hi]; exact ite_self _
    rw [timerPhase_of_set hi, timerPhase_of_set set, ite_self]
  case false =>
    have armed : timerPhase s = .armed ↔ s.mmc3.irqEnabled = true := by
      rw [timerPhase_of_clear hi]
      cases s.mmc3.irqEnabled <;> decide
    have asserts := edgeAsserts_irqEdge_iff s
    split
    · next fires =>
      obtain ⟨phase, zero, condition⟩ := fires
      exact timerPhase_of_set (bit.trans (if_pos (asserts.2 ⟨condition, zero, armed.1 phase⟩)))
    · next keeps =>
      refine timerPhase_congr (bit.trans ((if_neg fun a => keeps ?_))) enabled
      obtain ⟨condition, zero, on⟩ := asserts.1 a
      exact ⟨armed.2 on, zero, condition⟩

/-- Settles O24: each row of the table is one arm of `exec` on MMC3. -/
theorem timerPhasesFollowTheTable : Obligations.TimerPhasesFollowTheTable := by
  intro s t i hb h
  cases i with
  | irqEnable a d =>
    obtain ⟨-, e⟩ := (exec_irqEnable a d).1 h
    rw [if_pos hb] at e
    subst e
    cases hi : s.irqBoard
    · cases he : s.mmc3.irqEnabled <;> simp [timerPhase, hi, he]
    · simp [timerPhase, hi]
  | irqDisable a d =>
    obtain ⟨-, e⟩ := (exec_irqDisable a d).1 h
    rw [if_pos hb] at e
    subst e
    rfl
  | irqReload a d =>
    obtain ⟨-, e⟩ := (exec_irqReload a d).1 h
    rw [if_pos hb] at e
    subst e
    rfl
  | irqClear a d =>
    obtain ⟨-, e⟩ := (exec_irqClear a d).1 h
    rw [if_pos hb] at e
    subst e
    rfl
  | ack =>
    obtain ⟨-, rfl⟩ := exec_ack.1 h
    rfl
  | reset =>
    obtain ⟨-, rfl⟩ := exec_reset.1 h
    have disabled : (hardReset s).mmc3.irqEnabled = false := by rw [(hardReset_mmc3 hb).1]; rfl
    show timerPhase (hardReset s) = .idle
    rw [timerPhase_of_clear (hardReset_irqBoard s), disabled]
    rfl
  | a12 =>
    obtain ⟨-, e⟩ := exec_a12.1 h
    rw [if_pos hb] at e
    subst e
    exact timerPhase_irqEdge s
  | _ => exact trivial

/-! ### Registers with few writers -/

theorem zeroCounter_pending_of_ne {altIrq : Bool} {r : Mmc3Regs}
    (h : (zeroCounter altIrq r).irqClearPending ≠ r.irqClearPending) : altIrq = true := by
  cases altIrq
  · exact absurd rfl h
  · rfl

theorem putBankData_prg_high (r : Mmc3Regs) (d : Byte) :
    (putBankData r d).prg[2] = r.prg[2] ∧ (putBankData r d).prg[3] = r.prg[3] := by
  rcases putBankData_cases r d with ⟨k, e⟩ | e | e | e <;> rw [e] <;> simp

theorem putBankData_timer (r : Mmc3Regs) (d : Byte) :
    (putBankData r d).priorIrqCounter = r.priorIrqCounter ∧ (putBankData r d).irqClearPending = r.irqClearPending := by
  rcases putBankData_cases r d with ⟨k, e⟩ | e | e | e <;> rw [e] <;> exact ⟨rfl, rfl⟩

/-- Settles O53: of the moves left only BANK_DATA writes a PRG register, and it writes the first two. -/
theorem fixedPrgRegistersAreNotReprogrammed : Obligations.FixedPrgRegistersAreNotReprogrammed := by
  intro s t i h notReset notLoad
  obtain ⟨-, e⟩ := exec_effect h
  cases e with
  | bankData a d => exact putBankData_prg_high s.mmc3 d
  | reset => exact absurd rfl notReset
  | load b => exact absurd rfl (notLoad b)
  | _ => exact ⟨rfl, rfl⟩

/-- Settles O54: of the moves left only IRQ_RELOAD and IRQ_CLEAR write a hidden register, and only under `ALT_IRQ`. -/
theorem hiddenTimerRegistersHaveFewWriters : Obligations.HiddenTimerRegistersHaveFewWriters := by
  intro s t i h notReset notLoad notEdge
  obtain ⟨-, e⟩ := exec_effect h
  cases e with
  | bankData a d =>
    obtain ⟨prior, pending⟩ := putBankData_timer s.mmc3 d
    exact ⟨prior, fun ne => absurd pending ne⟩
  | irqReload a d => exact ⟨rfl, fun ne => ⟨zeroCounter_pending_of_ne ne, a, d, .inl rfl⟩⟩
  | irqClear a d => exact ⟨rfl, fun ne => ⟨zeroCounter_pending_of_ne ne, a, d, .inr rfl⟩⟩
  | reset => exact absurd rfl notReset
  | load b => exact absurd rfl (notLoad b)
  | a12 => exact absurd rfl notEdge
  | _ => exact ⟨rfl, fun ne => absurd rfl ne⟩

/-- Settles O55: two moves write the mode. -/
theorem mirroringHasTwoWriters : Obligations.MirroringHasTwoWriters := by
  intro s t i h ne
  obtain ⟨-, e⟩ := exec_effect h
  cases e with
  | mirroring a d _ board wired => exact .inr ⟨board, wired, a, d, rfl⟩
  | reset => exact .inl ⟨rfl, hardReset_mirroring s⟩
  | load b => exact absurd (loadRegs_mirroring b s) ne
  | _ => exact absurd rfl ne

/-! ### Memory -/

@[simp] theorem loadRegs_chrRam (b : List Byte) (s : State) : (loadRegs b s).chrRam = s.chrRam := by
  rw [loadRegs_frame]

/-- Only a PPU write on a RAM board writes CHR RAM. -/
theorem Effect.chrRam_eq {i : Instr} (e : Effect i s t)
    (h : s.params.chrIsRam = false ∨ ∀ a d, i ≠ .pwChr a d) : t.chrRam = s.chrRam := by
  cases e with
  | pwChr a d _ o ram =>
    rcases h with rom | other
    · exact absurd ram (by simp [rom])
    · exact absurd rfl (other a d)
  | reset => exact hardReset_chrRam s
  | load b => exact loadRegs_chrRam b s
  | _ => rfl

/-- Settles O57: the images are parameters, and CHR RAM is written by a PPU write alone. -/
theorem onlyPpuWritesChangeMemory : Obligations.OnlyPpuWritesChangeMemory := by
  intro s t i h
  have params := exec_params h
  refine ⟨fun o => by rw [params], fun noWrite o => ?_⟩
  simp only [chrRead, params, (exec_effect h).2.chrRam_eq noWrite]

/-! ### Repeated operations -/

/-- An operation that completes with an idempotent function, done again. -/
theorem exec_again_of_eq {i : Instr} {f : State → State} (spec : ∀ s t, exec i s = .next t ↔ s.fault = none ∧ t = f s)
    (idem : ∀ s, f (f s) = f s) (h : exec i s = .next t) (hf : t.fault = none) : exec i t = .next t := by
  obtain ⟨-, rfl⟩ := (spec s t).1 h
  exact (spec _ _).2 ⟨hf, (idem s).symm⟩

/-- The same, for an operation one board implements. -/
theorem exec_again_onBoard {i : Instr} {b : Board} {f : State → State}
    (spec : ∀ s t, exec i s = .next t ↔ s.fault = none ∧ t = if s.params.board = b then f s else s)
    (params : ∀ s, (f s).params = s.params) (idem : ∀ s, f (f s) = f s) (h : exec i s = .next t)
    (hf : t.fault = none) : exec i t = .next t := by
  refine exec_again_of_eq spec (fun s => ?_) h hf
  by_cases hb : s.params.board = b
  · rw [if_pos hb, if_pos (by rw [params, hb]), idem]
  · rw [if_neg hb, if_neg hb]

theorem latch_cases (r : Mmc3Regs) :
    (∃ k : Fin 6, r.latch = BitVec.ofNat 32 k.val) ∨ r.latch = 6#32 ∨ r.latch = 7#32 ∨ 7 < r.latch.toNat := by
  have value : r.latch = BitVec.ofNat 32 r.latch.toNat := by simp
  obtain lt | eq | eq | gt : r.latch.toNat < 6 ∨ r.latch.toNat = 6 ∨ r.latch.toNat = 7 ∨ 7 < r.latch.toNat := by omega
  · exact .inl ⟨⟨_, lt⟩, value⟩
  · exact .inr (.inl (eq ▸ value))
  · exact .inr (.inr (.inl (eq ▸ value)))
  · exact .inr (.inr (.inr gt))

theorem putBankData_putBankData (r : Mmc3Regs) (d : Byte) : putBankData (putBankData r d) d = putBankData r d := by
  rcases latch_cases r with ⟨k, h⟩ | h | h | h
  · rw [putBankData_chr k h, putBankData_chr k, Vector.set_set]
    exact h
  · rw [putBankData_latch6 h, putBankData_latch6, Vector.set_set]
    exact h
  · rw [putBankData_latch7 h, putBankData_latch7, Vector.set_set]
    exact h
  · rw [putBankData_above h, putBankData_above h]

theorem zeroCounter_zeroCounter (altIrq : Bool) (r : Mmc3Regs) :
    zeroCounter altIrq (zeroCounter altIrq r) = zeroCounter altIrq r := by
  cases altIrq <;> rfl

theorem Memory.write_write (m : Memory) (o : Nat) (v : Byte) :
    Memory.write (Memory.write m o v) o v = Memory.write m o v := by
  induction m with
  | nil => simp [Memory.write]
  | cons c m ih =>
    obtain ⟨k, u⟩ := c
    by_cases lt : o < k
    · simp [Memory.write, lt]
    · by_cases eq : o = k
      · simp [Memory.write, eq]
      · simp [Memory.write, lt, eq, ih]

theorem windowWriteChr_windowWriteChr (s : State) (a : Nat) (v : Byte) :
    windowWriteChr (windowWriteChr s a v) a v = windowWriteChr s a v := by
  cases ho : windowOffset s .chr a with
  | error f =>
    have raises (u : State) (hu : windowOffset u .chr a = .error f) : windowWriteChr u a v = u.raise f := by
      rw [windowWriteChr, hu]
    rw [raises s ho, raises (s.raise f) ho]
    rfl
  | ok o =>
    have writes (u : State) (hu : windowOffset u .chr a = .ok o) :
        windowWriteChr u a v = if u.params.chrIsRam then { u with chrRam := Memory.write u.chrRam o v } else u := by
      rw [windowWriteChr, hu]
    rw [writes s ho]
    split
    · next ram =>
      rw [writes { s with chrRam := Memory.write s.chrRam o v } ho, if_pos ram, Memory.write_write]
    · next rom => rw [writes s ho, if_neg rom]

theorem finishRead_finishRead (s : State) (r : Except Fault Byte) :
    finishRead (finishRead s r) r = finishRead s r := by
  cases r <;> rfl

/-- A read's end writes nothing a read reads. -/
theorem windowRead_finishRead (s : State) (r : Except Fault Byte) (a : Nat) :
    windowReadPrg (finishRead s r) a = windowReadPrg s a ∧ windowReadChr (finishRead s r) a = windowReadChr s a := by
  cases r <;> exact ⟨rfl, rfl⟩

theorem loadStream_loadStream (b : List Byte) (s : State) : loadStream b (loadStream b s) = loadStream b s := by
  by_cases short : b.length < layoutSize s.params.board
  · simp [loadStream, short, State.raise]
  · cases hb : s.params.board <;> rw [hb] at short <;> simp [loadStream, short, loadRegs, hb, State.recompute]

/-- Every operation but an edge and a SAVE, done again on the state it left without a fault, leaves that state. -/
theorem exec_again {i : Instr} (notEdge : i ≠ .a12) (notSave : i ≠ .save) (h : exec i s = .next t)
    (hf : t.fault = none) : exec i t = .next t := by
  cases i with
  | bankSelect a d => exact exec_again_onBoard (fun _ _ => exec_bankSelect a d) (fun _ => rfl) (fun _ => rfl) h hf
  | bankData a d =>
    refine exec_again_onBoard (fun _ _ => exec_bankData a d) (fun _ => rfl) (fun s => ?_) h hf
    simp [State.recompute, putBankData_putBankData]
  | mirroring a d =>
    refine exec_again_onBoard (fun _ _ => exec_mirroring a d) (fun s => ?_) (fun s => ?_) h hf <;>
      by_cases full : s.params.wired = .full <;> simp [full]
  | prgMode a d => exact exec_again_of_eq (f := id) (fun _ _ => exec_prgMode a d) (fun _ => rfl) h hf
  | irqReload a d =>
    refine exec_again_onBoard (fun _ _ => exec_irqReload a d) (fun _ => rfl) (fun s => ?_) h hf
    exact congrArg (fun r => { s with mmc3 := r }) (zeroCounter_zeroCounter s.params.altIrq { s.mmc3 with irqReload := d })
  | irqClear a d =>
    refine exec_again_onBoard (fun _ _ => exec_irqClear a d) (fun _ => rfl) (fun s => ?_) h hf
    exact congrArg (fun r => { s with mmc3 := r }) (zeroCounter_zeroCounter s.params.altIrq s.mmc3)
  | irqDisable a d => exact exec_again_onBoard (fun _ _ => exec_irqDisable a d) (fun _ => rfl) (fun _ => rfl) h hf
  | irqEnable a d => exact exec_again_onBoard (fun _ _ => exec_irqEnable a d) (fun _ => rfl) (fun _ => rfl) h hf
  | simpleWrite a d => exact exec_again_onBoard (fun _ _ => exec_simpleWrite a d) (fun _ => rfl) (fun _ => rfl) h hf
  | cwUndecoded a d => exact exec_again_of_eq (f := id) (fun _ _ => exec_cwUndecoded a d) (fun _ => rfl) h hf
  | pwNotServed a d => exact exec_again_of_eq (f := id) (fun _ _ => exec_pwNotServed a d) (fun _ => rfl) h hf
  | crPrg a =>
    refine exec_again_of_eq (fun _ _ => exec_crPrg a) (fun s => ?_) h hf
    rw [(windowRead_finishRead ..).1, finishRead_finishRead]
  | prChr a =>
    refine exec_again_of_eq (fun _ _ => exec_prChr a) (fun s => ?_) h hf
    rw [(windowRead_finishRead ..).2, finishRead_finishRead]
  | crOpenBus a => exact exec_again_of_eq (fun _ _ => exec_crOpenBus a) (fun _ => rfl) h hf
  | prNotServed a => exact exec_again_of_eq (fun _ _ => exec_prNotServed a) (fun _ => rfl) h hf
  | pwChr a d =>
    exact exec_again_of_eq (fun _ _ => exec_pwChr a d) (fun s => windowWriteChr_windowWriteChr s _ d) h hf
  | reset => exact exec_again_of_eq (fun _ _ => exec_reset) hardReset_hardReset h hf
  | load b => exact exec_again_of_eq (fun _ _ => exec_load b) (loadStream_loadStream b) h hf
  | ack => exact exec_again_of_eq (fun _ _ => exec_ack) (fun _ => rfl) h hf
  | a12 => exact absurd rfl notEdge
  | save => exact absurd rfl notSave

/-- A move of a read operation. -/
theorem Effect.read_frame {i : Instr} (e : Effect i s t)
    (read : (∃ a, i = .crPrg a) ∨ (∃ a, i = .crOpenBus a) ∨ (∃ a, i = .prChr a) ∨ ∃ a, i = .prNotServed a) :
    t = { s with readData := t.readData, fault := t.fault } := by
  rcases read with ⟨a, rfl⟩ | ⟨a, rfl⟩ | ⟨a, rfl⟩ | ⟨a, rfl⟩ <;> cases e <;> rfl

/-- Settles O58: a read's moves write two fields, and no read is an edge or a SAVE. -/
theorem readsHaveNoSideEffects : Obligations.ReadsHaveNoSideEffects := by
  intro s t i read h
  refine ⟨(exec_effect h).2.read_frame read, fun hf => exec_again ?_ ?_ h hf⟩ <;>
    rcases read with ⟨a, rfl⟩ | ⟨a, rfl⟩ | ⟨a, rfl⟩ | ⟨a, rfl⟩ <;> simp

/-- Settles O59: the parameters are constant, so the decode is, and a write encodes to neither an edge nor a SAVE. -/
theorem writesAreIdempotent : Obligations.WritesAreIdempotent := by
  intro s t o write h hf
  rw [exec_params h]
  have encoded := encode_decode s.params o
  refine exec_again (fun edge => ?_) (fun save => ?_) h hf
  · rw [edge] at encoded
    rcases write with ⟨a, d, rfl⟩ | ⟨a, d, rfl⟩ <;> cases encoded
  · rw [save] at encoded
    rcases write with ⟨a, d, rfl⟩ | ⟨a, d, rfl⟩ <;> cases encoded

end Sys2Proof.Machine

/-!
PROOF. The rest of the round-trip law (spec/46_state_codec.md section 4): two boards of one cartridge with the same persisted
state answer every operation alike, whatever their wiring, mirroring, interrupt bit and CHR RAM.
-/

namespace Sys2Proof.Machine

variable {s t s' t' : State}

/-! ### Same persisted state -/

/-- The two boards' next states agree again, and interrupt bits that agreed still agree. -/
def Alike (s t s' t' : State) : Prop :=
  SamePersisted s' t' ∧ (s.irqBoard = t.irqBoard → s'.irqBoard = t'.irqBoard)

theorem SamePersisted.alike (h : SamePersisted s t) : Alike s t s t := ⟨h, id⟩

theorem SamePersisted.putMmc3 (h : SamePersisted s t) {f : Mmc3Regs → Mmc3Regs} :
    SamePersisted { s with mmc3 := f s.mmc3 } { t with mmc3 := f t.mmc3 } :=
  ⟨h.params, congrArg f h.mmc3, h.simple, h.windows, h.fault⟩

/-- Where both window tables follow the registers, they agree with the registers. -/
theorem SamePersisted.of_windowsFollow (params : SameCartridge s.params t.params) (mmc3 : s.mmc3 = t.mmc3)
    (simple : s.simple = t.simple) (fault : s.fault = t.fault) (hs : s.WindowsFollow) (ht : t.WindowsFollow) :
    SamePersisted s t where
  params := params
  mmc3 := mmc3
  simple := simple
  windows := by
    rw [hs, ht, mmc3, simple]
    exact windowTable_congr params.board params.prgSize params.chrSize ..
  fault := fault

theorem SamePersisted.recompute (h : SamePersisted s t) : SamePersisted s.recompute t.recompute :=
  .of_windowsFollow h.params h.mmc3 h.simple h.fault s.recompute_windowsFollow t.recompute_windowsFollow

theorem SamePersisted.raise (h : SamePersisted s t) (f : Fault) : SamePersisted (s.raise f) (t.raise f) :=
  ⟨h.params, h.mmc3, h.simple, h.windows, rfl⟩

theorem resetMmc3_congr {p q : Params} (h : p.prgSize = q.prgSize) : resetMmc3 p = resetMmc3 q := by
  simp only [resetMmc3, m8P, h]

theorem SamePersisted.hardReset (h : SamePersisted s t) : SamePersisted (hardReset s) (hardReset t) := by
  have regs : (Machine.hardReset s).mmc3 = (Machine.hardReset t).mmc3 ∧
      (Machine.hardReset s).simple = (Machine.hardReset t).simple := by
    cases hb : s.params.board
    case mmc3 =>
      obtain ⟨mmc3, simple⟩ := hardReset_mmc3 hb
      obtain ⟨mmc3', simple'⟩ := hardReset_mmc3 (h.params.board.symm.trans hb)
      rw [mmc3, mmc3', simple, simple', resetMmc3_congr h.params.prgSize]
      exact ⟨rfl, h.simple⟩
    case simple =>
      obtain ⟨mmc3, simple⟩ := hardReset_simple hb
      obtain ⟨mmc3', simple'⟩ := hardReset_simple (h.params.board.symm.trans hb)
      rw [mmc3, mmc3', simple, simple']
      exact ⟨h.mmc3, rfl⟩
  refine .of_windowsFollow ?_ regs.1 regs.2 ?_ (hardReset_windowsFollow s) (hardReset_windowsFollow t)
  · rw [hardReset_params, hardReset_params]
    exact h.params
  · rw [hardReset_fault, hardReset_fault]
    exact h.fault

@[simp] theorem loadRegs_fault (b : List Byte) (s : State) : (loadRegs b s).fault = s.fault := by
  rw [loadRegs_frame]

theorem SamePersisted.loadRegs_recompute (h : SamePersisted s t) (b : List Byte) :
    SamePersisted (loadRegs b s).recompute (loadRegs b t).recompute := by
  have regs : (loadRegs b s).mmc3 = (loadRegs b t).mmc3 ∧ (loadRegs b s).simple = (loadRegs b t).simple := by
    cases hb : s.params.board
    case mmc3 =>
      obtain ⟨mmc3, simple⟩ := loadRegs_mmc3 hb b
      obtain ⟨mmc3', simple'⟩ := loadRegs_mmc3 (h.params.board.symm.trans hb) b
      rw [mmc3, mmc3', simple, simple']
      exact ⟨rfl, h.simple⟩
    case simple =>
      obtain ⟨mmc3, simple⟩ := loadRegs_simple hb b
      obtain ⟨mmc3', simple'⟩ := loadRegs_simple (h.params.board.symm.trans hb) b
      rw [mmc3, mmc3', simple, simple']
      exact ⟨h.mmc3, rfl⟩
  refine .of_windowsFollow ?_ regs.1 regs.2 ?_ (State.recompute_windowsFollow _) (State.recompute_windowsFollow _)
  · simpa using h.params
  · simpa using h.fault

/-! ### Alike moves -/

/-- Operations that complete with one function, alike on the two states. -/
theorem Alike.of_eq {i : Instr} {f : State → State} (spec : ∀ s t, exec i s = .next t ↔ s.fault = none ∧ t = f s)
    (alike : Alike s t (f s) (f t)) (hs : exec i s = .next s') (ht : exec i t = .next t') : Alike s t s' t' := by
  obtain ⟨-, rfl⟩ := (spec s s').1 hs
  obtain ⟨-, rfl⟩ := (spec t t').1 ht
  exact alike

/-- The same, for an operation one board implements. -/
theorem Alike.of_eq_onBoard {i : Instr} {b : Board} {f : State → State}
    (spec : ∀ s t, exec i s = .next t ↔ s.fault = none ∧ t = if s.params.board = b then f s else s)
    (h : SamePersisted s t) (alike : Alike s t (f s) (f t)) (hs : exec i s = .next s') (ht : exec i t = .next t') :
    Alike s t s' t' := by
  refine .of_eq spec ?_ hs ht
  rw [← h.params.board]
  split
  · exact alike
  · exact h.alike

/-- Two reads that fail alike leave the boards alike, whatever bytes they return. -/
theorem Alike.finishRead (h : SamePersisted s t) {r r' : Except Fault Byte}
    (errors : ∀ f, r = .error f ↔ r' = .error f) : Alike s t (finishRead s r) (finishRead t r') := by
  match r, r' with
  | .ok v, .ok v' => exact ⟨⟨h.params, h.mmc3, h.simple, h.windows, h.fault⟩, id⟩
  | .error f, r' =>
    rw [(errors f).1 rfl]
    exact ⟨h.raise f, id⟩
  | .ok v, .error f => cases (errors f).2 rfl

theorem windowReadPrg_congr (h : SamePersisted s t) (a : Nat) : windowReadPrg s a = windowReadPrg t a := by
  simp only [windowReadPrg, windowOffset_congr h.params h.windows, prgRom_congr h.params]

theorem windowReadChr_congr (h : SamePersisted s t) (rom : s.params.chrIsRam = false) (a : Nat) :
    windowReadChr s a = windowReadChr t a := by
  simp only [windowReadChr, windowOffset_congr h.params h.windows, chrRead_congr h.params rom]

theorem windowReadChr_error_iff (h : SamePersisted s t) (a : Nat) (f : Fault) :
    windowReadChr s a = .error f ↔ windowReadChr t a = .error f := by
  rw [windowReadChr, windowReadChr, windowOffset_congr h.params h.windows]
  cases windowOffset t .chr a <;> simp

theorem Alike.windowWriteChr (h : SamePersisted s t) (a : Nat) (v : Byte) :
    Alike s t (windowWriteChr s a v) (windowWriteChr t a v) := by
  rw [Machine.windowWriteChr, Machine.windowWriteChr, windowOffset_congr h.params h.windows]
  cases windowOffset t .chr a with
  | error f => exact ⟨h.raise f, id⟩
  | ok o =>
    simp only [← h.params.chrIsRam]
    split
    · exact ⟨⟨h.params, h.mmc3, h.simple, h.windows, h.fault⟩, id⟩
    · exact h.alike

/-- The edge makes the same assertion decision on both. -/
theorem Alike.irqEdge (h : SamePersisted s t) : Alike s t (irqEdge s) (irqEdge t) := by
  have mmc3 := congrArg (fun r => edgeConsume (edgeCount r)) h.mmc3
  refine ⟨⟨h.params, mmc3, h.simple, h.windows, h.fault⟩, fun bits => ?_⟩
  rw [irqEdge_irqBoard, irqEdge_irqBoard, h.mmc3, h.params.altIrq, bits]

theorem Alike.loadStream (h : SamePersisted s t) (b : List Byte) : Alike s t (loadStream b s) (loadStream b t) := by
  have size : layoutSize s.params.board = layoutSize t.params.board := by rw [h.params.board]
  rcases loadStream_cases b s with ⟨short, e⟩ | ⟨enough, e⟩ <;>
    rcases loadStream_cases b t with ⟨short', e'⟩ | ⟨enough', e'⟩
  · rw [e, e', size]
    exact ⟨h.raise _, id⟩
  · omega
  · omega
  · rw [e, e']
    have same := h.loadRegs_recompute b
    exact ⟨⟨same.params, same.mmc3, same.simple, same.windows, same.fault⟩, by simp⟩

/-- Every operation answers alike on boards of the same persisted state. -/
theorem exec_alike {i : Instr} (h : SamePersisted s t) (hs : exec i s = .next s') (ht : exec i t = .next t') :
    Alike s t s' t' := by
  cases i with
  | bankSelect a d =>
    exact .of_eq_onBoard (fun _ _ => exec_bankSelect a d) h
      ⟨(h.putMmc3 (f := fun r => { r with latch := fieldR d, flagP := fieldP d, flagC := fieldC d })).recompute, id⟩ hs ht
  | bankData a d =>
    exact .of_eq_onBoard (fun _ _ => exec_bankData a d) h
      ⟨(h.putMmc3 (f := fun r => putBankData r d)).recompute, id⟩ hs ht
  | mirroring a d =>
    refine .of_eq_onBoard (fun _ _ => exec_mirroring a d) h ?_ hs ht
    split <;> split <;> exact ⟨⟨h.params, h.mmc3, h.simple, h.windows, h.fault⟩, id⟩
  | prgMode a d => exact .of_eq (f := id) (fun _ _ => exec_prgMode a d) h.alike hs ht
  | irqReload a d =>
    refine .of_eq_onBoard (fun _ _ => exec_irqReload a d) h ⟨?_, id⟩ hs ht
    rw [← h.params.altIrq]
    exact h.putMmc3 (f := fun r => zeroCounter s.params.altIrq { r with irqReload := d })
  | irqClear a d =>
    refine .of_eq_onBoard (fun _ _ => exec_irqClear a d) h ⟨?_, id⟩ hs ht
    rw [← h.params.altIrq]
    exact h.putMmc3 (f := zeroCounter s.params.altIrq)
  | irqDisable a d =>
    refine .of_eq_onBoard (fun _ _ => exec_irqDisable a d) h ⟨?_, fun _ => rfl⟩ hs ht
    exact ⟨h.params, by rw [h.mmc3], h.simple, h.windows, h.fault⟩
  | irqEnable a d =>
    exact .of_eq_onBoard (fun _ _ => exec_irqEnable a d) h
      ⟨h.putMmc3 (f := fun r => { r with irqEnabled := true }), id⟩ hs ht
  | simpleWrite a d =>
    refine .of_eq_onBoard (fun _ _ => exec_simpleWrite a d) h ⟨SamePersisted.recompute ?_, id⟩ hs ht
    exact ⟨h.params, h.mmc3, rfl, h.windows, h.fault⟩
  | cwUndecoded a d => exact .of_eq (f := id) (fun _ _ => exec_cwUndecoded a d) h.alike hs ht
  | pwNotServed a d => exact .of_eq (f := id) (fun _ _ => exec_pwNotServed a d) h.alike hs ht
  | crPrg a =>
    exact .of_eq (fun _ _ => exec_crPrg a) (.finishRead h fun f => by rw [windowReadPrg_congr h]) hs ht
  | prChr a => exact .of_eq (fun _ _ => exec_prChr a) (.finishRead h (windowReadChr_error_iff h _)) hs ht
  | pwChr a d => exact .of_eq (fun _ _ => exec_pwChr a d) (.windowWriteChr h _ d) hs ht
  | crOpenBus a =>
    exact .of_eq (fun _ _ => exec_crOpenBus a) ⟨⟨h.params, h.mmc3, h.simple, h.windows, h.fault⟩, id⟩ hs ht
  | prNotServed a =>
    exact .of_eq (fun _ _ => exec_prNotServed a) ⟨⟨h.params, h.mmc3, h.simple, h.windows, h.fault⟩, id⟩ hs ht
  | a12 => exact .of_eq_onBoard (fun _ _ => exec_a12) h (.irqEdge h) hs ht
  | reset => exact .of_eq (fun _ _ => exec_reset) ⟨h.hardReset, fun _ => by simp⟩ hs ht
  | save => exact .of_eq (fun _ _ => exec_save) ⟨⟨h.params, h.mmc3, h.simple, h.windows, h.fault⟩, id⟩ hs ht
  | load b => exact .of_eq (fun _ _ => exec_load b) (.loadStream h b) hs ht
  | ack => exact .of_eq (fun _ _ => exec_ack) ⟨⟨h.params, h.mmc3, h.simple, h.windows, h.fault⟩, fun _ => rfl⟩ hs ht

/-! ### The bytes read -/

/-- A read that raised no fault returned its byte, whatever the board. -/
theorem finishRead_readData {r : Except Fault Byte} (hf : (finishRead s r).fault = none) :
    (finishRead s r).readData = (finishRead t r).readData := by
  cases r with
  | ok v => rfl
  | error f => cases hf

/-- A PRG read, and a CHR read of ROM, returns the same byte on both. -/
theorem exec_read_alike {i : Instr} (h : SamePersisted s t) (hs : exec i s = .next s') (ht : exec i t = .next t')
    (hf : s'.fault = none)
    (read : (∃ a, i = .crPrg a) ∨ ((∃ a, i = .prChr a) ∧ s.params.chrIsRam = false)) : s'.readData = t'.readData := by
  rcases read with ⟨a, rfl⟩ | ⟨⟨a, rfl⟩, rom⟩
  · obtain ⟨-, rfl⟩ := (exec_crPrg a).1 hs
    obtain ⟨-, rfl⟩ := (exec_crPrg a).1 ht
    rw [← windowReadPrg_congr h]
    exact finishRead_readData hf
  · obtain ⟨-, rfl⟩ := (exec_prChr a).1 hs
    obtain ⟨-, rfl⟩ := (exec_prChr a).1 ht
    rw [← windowReadChr_congr h rom]
    exact finishRead_readData hf

/-- Settles O39: the fault mark is shared, so both operations stop with it or both complete, alike (`exec_alike`). -/
theorem boardsOfOnePersistedStateStayAlike : Obligations.BoardsOfOnePersistedStateStayAlike := by
  intro s t i h
  cases hf : s.fault with
  | some f =>
    rw [exec_of_fault hf, exec_of_fault (h.fault.symm.trans hf)]
  | none =>
    obtain ⟨s', hs⟩ := exec_completes hf i
    obtain ⟨t', ht⟩ := exec_completes (h.fault.symm.trans hf) i
    obtain ⟨same, bits⟩ := exec_alike h hs ht
    rw [hs, ht]
    exact ⟨same, bits, exec_read_alike h hs ht⟩

end Sys2Proof.Machine
